-- ==== Sys2Proof/Word.lean ====
section
/-! DEFINITION. The widths of the block: bytes, raw samples, corrected samples, transaction words (spec/00_scope.md R4, R5). -/

namespace Sys2Proof

/-- A byte of the stream, `u8` (R5, R30). -/
abbrev Byte := BitVec 8

/-- A raw sample, `SAMPLE_W = 16` bits unsigned (R4, R45). -/
abbrev Sample := BitVec 16

/-- A corrected sample in quarter units, `CORR_W = 20` bits two's complement; its value is `toInt` (R4, R8, R96). -/
abbrev Corr := BitVec 20

/-- A transaction word, `TW_W = 16` bits (R4, R49). -/
abbrev TWord := BitVec 16

end Sys2Proof
end

