-- ==== Sys2Proof/Syntax.lean ====
section
/-! DEFINITION. The eight operations (spec/30_encoding.md R52), one constructor per row of the opcode table, and the three
formats of the transaction word (R50). -/

namespace Sys2Proof

/-- An operation with its operands assembled as R51 says: no operand is split, scaled or sign-extended. -/
inductive Instr where
  /-- `PUSH byte`, R69. -/
  | push (byte : Byte)
  /-- `EXTRACT`, R70. -/
  | extract
  /-- `TRIM`, R73. -/
  | trim
  /-- `DECODE`, R88. -/
  | decode
  /-- `SETCFG invert, balanced`, R104. -/
  | setcfg (invert balanced : Bool)
  /-- `CORRECT`, R105. -/
  | correct
  /-- `EMIT`, R116. -/
  | emit
  /-- `CLEAR`, R117. -/
  | clear
  deriving DecidableEq, Repr

/-- The eight mnemonics without operands: the rows of the operation map (R52). -/
inductive Op where
  | push | extract | trim | decode | setcfg | correct | emit | clear
  deriving DecidableEq, Repr

/-- The three formats (R50): a data byte, the two configuration bits, no argument. -/
inductive Format where
  | b | c | n
  deriving DecidableEq, Repr

/-- The mnemonic of an operation. -/
def Instr.op : Instr → Op
  | .push _ => .push
  | .extract => .extract
  | .trim => .trim
  | .decode => .decode
  | .setcfg _ _ => .setcfg
  | .correct => .correct
  | .emit => .emit
  | .clear => .clear

end Sys2Proof
end

