-- ==== Sys2Proof/WellFormed.lean ====
section
/-! DEFINITION. Which transaction words are well formed: the four clauses of spec/30_encoding.md R55, read off the word's
number, independently of the decoder's masks. An `Instr` needs no check of its own: the types of its operands hold exactly
the values R50 admits (256 bytes, two bits), so every `Instr` is well formed. -/

namespace Sys2Proof

/-- R55 (a): `op = 0x00`. -/
def TWord.opIsZero (tw : TWord) : Bool := tw.toNat / 256 == 0

/-- R55 (b): `op >= 0x09`. -/
def TWord.opIsReserved (tw : TWord) : Bool := decide (9 ≤ tw.toNat / 256)

/-- R55 (c): a format N code with `arg != 0x00`. -/
def TWord.argIsStray (tw : TWord) : Bool :=
  [2, 3, 4, 6, 7, 8].contains (tw.toNat / 256) && tw.toNat % 256 != 0

/-- R55 (d): `op = 0x05` with `arg[7:2] != 0`. -/
def TWord.cfgBitsAreStray (tw : TWord) : Bool := tw.toNat / 256 == 5 && tw.toNat % 256 / 4 != 0

/-- A word is legal when none of R55's four clauses holds of it. -/
def TWord.legal (tw : TWord) : Bool :=
  !(tw.opIsZero || tw.opIsReserved || tw.argIsStray || tw.cfgBitsAreStray)

end Sys2Proof
end

