-- ==== Sys2Proof/Decode.lean ====
section
/-! DEFINITION. The transaction word's decoder, total on the 65536 words and rejecting by name, and the encoder
(spec/30_encoding.md R49 to R52, R55). -/

namespace Sys2Proof

/-- `TW[15:8]`, the operation code (R49). -/
def opField (tw : TWord) : BitVec 8 := tw.extractLsb' 8 8

/-- `TW[7:0]`, the argument; for format B the data byte (R49, R51). -/
def argField (tw : TWord) : Byte := tw.extractLsb' 0 8

/-- `TW[0]`, `invert` of format C (R51). -/
def invertField (tw : TWord) : Bool := tw.getLsbD 0

/-- `TW[1]`, `balanced` of format C (R51). -/
def balancedField (tw : TWord) : Bool := tw.getLsbD 1

/-- A row of the operation map of R52. -/
structure OpRow where
  op : Op
  format : Format
  matchBits : TWord
  mask : TWord
  deriving DecidableEq, Repr

/-- The operation map (R52), in the spec's order. -/
def opTable : List OpRow := [
  ⟨.push, .b, 0x0100, 0xFF00⟩,
  ⟨.extract, .n, 0x0200, 0xFFFF⟩,
  ⟨.trim, .n, 0x0300, 0xFFFF⟩,
  ⟨.decode, .n, 0x0400, 0xFFFF⟩,
  ⟨.setcfg, .c, 0x0500, 0xFFFC⟩,
  ⟨.correct, .n, 0x0600, 0xFFFF⟩,
  ⟨.emit, .n, 0x0700, 0xFFFF⟩,
  ⟨.clear, .n, 0x0800, 0xFFFF⟩]

/-- "A word is decoded by testing `(TW & mask) = match`" (R52). -/
def OpRow.hits (r : OpRow) (tw : TWord) : Bool := tw &&& r.mask == r.matchBits

/-- Operand assembly (R51): the operands come from the word's own bits, by the row's format. -/
def assemble (op : Op) (tw : TWord) : Instr :=
  match op with
  | .push => .push (argField tw)
  | .extract => .extract
  | .trim => .trim
  | .decode => .decode
  | .setcfg => .setcfg (invertField tw) (balancedField tw)
  | .correct => .correct
  | .emit => .emit
  | .clear => .clear

/-- Why a word is illegal: the four clauses of R55. -/
inductive Illegal where
  /-- (a) `op = 0x00`. -/
  | opZero
  /-- (b) `op >= 0x09`. -/
  | opReserved
  /-- (c) a format N code with a nonzero argument. -/
  | argNotZero
  /-- (d) `SETCFG` with a nonzero bit in `arg[7:2]`. -/
  | cfgReservedBits
  deriving DecidableEq, Repr

/-- The name of a rejected word: which clause of R55 it meets. Asked only of words that hit no row. -/
def illegalReason (tw : TWord) : Illegal :=
  if opField tw = 0x00 then .opZero
  else if 0x09 ≤ opField tw then .opReserved
  else if opField tw = 0x05 then .cfgReservedBits
  else .argNotZero

/-- "A model's decoder is total: every 16-bit word is either one of the eight operations or `ILLEGAL`" (R55). -/
def decodeWord (tw : TWord) : Except Illegal Instr :=
  match opTable.find? (·.hits tw) with
  | some r => .ok (assemble r.op tw)
  | none => .error (illegalReason tw)

/-- The word of an operation, from the formats of R50 and the codes of R52. -/
def encode : Instr → TWord
  | .push byte => 0x01#8 ++ byte
  | .extract => 0x0200
  | .trim => 0x0300
  | .decode => 0x0400
  | .setcfg invert balanced => 0x05#8 ++ 0#6 ++ BitVec.ofBool balanced ++ BitVec.ofBool invert
  | .correct => 0x0600
  | .emit => 0x0700
  | .clear => 0x0800

/-- The operation the decoder reads from a word given as a number, bit 0 the least significant. Every row has 16 bits and
one word, so the bits above `nbits` are taken as 0. -/
def decodeTableWord (nbits w : Nat) : Option Instr :=
  (decodeWord (BitVec.ofNat 16 (w % 2 ^ nbits))).toOption

end Sys2Proof
end

