-- ==== Sys2Proof/Config.lean ====
section
/-! DEFINITION. The named constants of the block in ONE record (spec/00_scope.md R3) and its one open parameter,
the accumulator's capacity (R4). No other file spells one of these literals. -/

namespace Sys2Proof.Config

/-- The constants of R3, one field each, in the rule's order. -/
structure Constants where
  frameWords : Nat
  frameSize : Nat
  markerWords : List Sample
  markerLen : Nat
  markerBytesLen : Nat
  darkIdxA : Nat
  darkIdxB : Nat
  balEvenIdx : List Nat
  balOddIdx : List Nat
  balCount : Nat
  scanStep : Nat
  deriving DecidableEq, Repr

/-- The values of R3. UNVERIFIED against the repository (U1 of spec/93_implementation_defined.md; log 2): unsafe if a
literal is wrong. -/
def block : Constants where
  frameWords := 3694
  frameSize := 7388
  markerWords := [157, 58, 71]
  markerLen := 3
  markerBytesLen := 6
  darkIdxA := 10
  darkIdxB := 11
  balEvenIdx := [18, 20, 22, 24]
  balOddIdx := [19, 21, 23, 25]
  balCount := 1847
  scanStep := 2

/-- `FRAME_WORDS`. -/
def frameWords : Nat := block.frameWords
/-- `FRAME_SIZE`. -/
def frameSize : Nat := block.frameSize
/-- `MARKER_WORDS`. -/
def markerWords : List Sample := block.markerWords
/-- `MARKER_BYTES_LEN`. -/
def markerBytesLen : Nat := block.markerBytesLen
/-- `DARK_IDX_A`. -/
def darkIdxA : Nat := block.darkIdxA
/-- `DARK_IDX_B`. -/
def darkIdxB : Nat := block.darkIdxB
/-- `BAL_EVEN_IDX`. -/
def balEvenIdx : List Nat := block.balEvenIdx
/-- `BAL_ODD_IDX`. -/
def balOddIdx : List Nat := block.balOddIdx
/-- `BAL_COUNT`. -/
def balCount : Nat := block.balCount
/-- `SCAN_STEP`. -/
def scanStep : Nat := block.scanStep

/-- The open parameter of the block: `none` is `ACC_CAP = INF`, `some n` is `ACC_CAP = FRAME_SIZE + n`. Nothing is known
of it, so a claim holds for every capacity that R4 admits (D6; log 1, safe). -/
opaque accSlack : Option Nat

/-- `ACC_CAP` of R4: `none` is `INF`; a finite capacity is at least `FRAME_SIZE` by its form. -/
def accCap : Option Nat := accSlack.map (frameSize + ·)

end Sys2Proof.Config
end

