-- ==== Sys2Proof/Machine/State.lean ====
section
/-! DEFINITION. The state of the block (spec/10_state.md), the response and error codes (spec/30_encoding.md R53,
spec/60_exceptions.md R125), and the state after reset (R22, R140). Types only: every operation on them is in
Machine/Ops.lean. -/

namespace Sys2Proof.Machine

/-- The byte-addressed memory of the block: the accumulator `ACC`, a finite byte sequence whose entry `a` is the byte at
offset `a` (R10, R30). One form only: two memories that hold the same bytes are the same list; an offset at or past the
length does not exist (log 7). -/
abbrev Memory := List Byte

/-- A pair `(raw, cor)`: a RawFrame and the CorrectedFrame made from it (R13). -/
structure Event where
  raw : List Sample
  cor : List Corr
  deriving DecidableEq, Repr

/-- The response codes (R53). Code 7 is never produced and has no constructor (U16). -/
inductive Resp where
  /-- 0: the operation did what its rule says on success. -/
  | ok
  /-- 1: nothing to do. -/
  | none
  /-- 2: the destination stage register is occupied. -/
  | busy
  /-- 3: the source stage register is `Empty`. -/
  | empty
  /-- 4: the accumulator is at `ACC_CAP`. -/
  | full
  /-- 5: the word is not one of R52's. -/
  | illegal
  /-- 6: a precondition violation inside `decode` or `correct`. -/
  | precond
  deriving DecidableEq, Repr

/-- The errors that `ERR` can record (R125); codes 4 to 7 are never written (R17). -/
inductive ErrCode where
  /-- 1: `decode` was given a wrong length. -/
  | precondDecode
  /-- 2: `correct` was given a wrong length. -/
  | precondCorrect
  /-- 3: an illegal transaction word. -/
  | illegalTw
  deriving DecidableEq, Repr

/-- What crosses the block's inputs (R58): one transfer on the command port, or an application of `rst`, which carries the
word it interrupts, if any ("a word in progress is abandoned and has no effect", R140). -/
inductive PortEvent where
  | word (tw : TWord)
  | rst (abandoned : Option TWord)
  deriving DecidableEq, Repr

/-- The state of the block: the tuple of R9 and R22, the response of R58, and the master's coming events. -/
structure State where
  /-- `ACC` (R10). -/
  acc : Memory
  /-- `FRM` (R11); `none` is `Empty`. -/
  frm : Option (List Byte)
  /-- `RAW` (R12); `none` is `Empty`. -/
  raw : Option (List Sample)
  /-- `OUT` (R13); `none` is `Empty`. -/
  out : Option Event
  /-- `CFG` (R16): bit 0 `invert`, bit 1 `balanced`. -/
  cfg : BitVec 2
  /-- `ERR` (R17), sticky. -/
  err : BitVec 3
  /-- `OUTQ` (R18), oldest event first. -/
  outq : List Event
  /-- The response to the last word, `rsp_valid` and `rsp_code` of R58; `none` is `rsp_valid = 0` (log 5). -/
  rsp : Option Resp
  /-- THE MODEL'S OWN: what the master still sends, the next event first (log 3). -/
  port : List PortEvent
  deriving DecidableEq, Repr

/-- Faults. The block has none: an error changes its response and `ERR` and the next word executes normally (R127, R133,
R134), and the other responses are "neither fault, nor refusal, nor stuck" (R131). No constructor, so no step ends in a
fault (log 10). -/
inductive Fault where
  deriving DecidableEq, Repr

/-- Refusals. -/
inductive Refusal where
  /-- Raised by an arm of `exec` for an operation with no meaning yet; no arm raises it. Safe: the run stops. -/
  | notModelled (mnemonic : String)
  deriving DecidableEq, Repr

/-- The state after reset (R22, R140): every element at the value the spec states; `rsp` and `port` at the values of
log 5 and log 3. -/
def State.reset : State where
  acc := []
  frm := none
  raw := none
  out := none
  cfg := 0
  err := 0
  outq := []
  rsp := none
  port := []

end Sys2Proof.Machine
end

