-- ==== Sys2Proof/Machine/Ops.lean ====
section
/-! DEFINITION. The named operations over the memory and the registers: reads of the accumulator, its capacity, the updates
of each state element, responses, the record of an error (the block's whole "exception", spec/60_exceptions.md R133), and
reset. -/

namespace Sys2Proof.Machine

/-! ## The accumulator as memory (spec/20_memory.md) -/

/-- `b0 + 256 * b1`: the little-endian word of two bytes, the lower offset first (R31, R45). -/
def wordOf (lo hi : Byte) : Sample := BitVec.ofNat 16 (lo.toNat + 256 * hi.toNat)

/-- `MemRead(a, 1)` (R7): the byte at offset `a`; an offset past the end does not exist and has no value (R30). -/
def Memory.read (m : Memory) (a : Nat) : Option Byte := m[a]?

/-- `word(s, a)`, which is `MemRead(a, 2)` (R7, R31): defined only when `a + 2 <= len(s)`. -/
def Memory.readWord (m : Memory) (a : Nat) : Option Sample :=
  match m.read a, m.read (a + 1) with
  | some lo, some hi => some (wordOf lo hi)
  | _, _ => none

/-- The append of `PUSH` (R10): the byte goes to offset `len(ACC)`. -/
def Memory.append (m : Memory) (b : Byte) : Memory := m ++ [b]

/-- The front removal of `EXTRACT` and `TRIM` (R10, R30): the byte at offset `j >= k` is afterwards at `j - k`. -/
def Memory.dropFront (m : Memory) (k : Nat) : Memory := m.drop k

/-- The memory as address and byte pairs, addresses strictly rising. -/
def Memory.cells (m : Memory) : List Host.Cell := m.mapIdx fun a b => (a, b)

/-- `n = ACC_CAP` (R38, R69). The first test only says what `Config.accCap` is by form, a capacity of at least `FRAME_SIZE`,
so that a short accumulator is seen to have room whatever the parameter is. -/
def atCapacity (n : Nat) : Bool :=
  decide (Config.frameSize ≤ n) && Config.accSlack == some (n - Config.frameSize)

/-- The memory's form: `len(ACC) <= ACC_CAP` (R10, R23 (a)). -/
abbrev Memory.wf (m : Memory) : Prop := ∀ c ∈ Config.accCap, m.length ≤ c

/-! ## Codes -/

/-- The 3-bit code of a response (R53). -/
def Resp.code : Resp → BitVec 3
  | .ok => 0
  | .none => 1
  | .busy => 2
  | .empty => 3
  | .full => 4
  | .illegal => 5
  | .precond => 6

/-- The 3-bit code of an error (R125). -/
def ErrCode.code : ErrCode → BitVec 3
  | .precondDecode => 1
  | .precondCorrect => 2
  | .illegalTw => 3

/-! ## Updates, one per state element -/

def State.setAcc (s : State) (m : Memory) : State := { s with acc := m }
def State.setFrm (s : State) (f : Option (List Byte)) : State := { s with frm := f }
def State.setRaw (s : State) (r : Option (List Sample)) : State := { s with raw := r }
def State.setOut (s : State) (e : Option Event) : State := { s with out := e }
def State.setCfg (s : State) (c : BitVec 2) : State := { s with cfg := c }
def State.setErr (s : State) (e : BitVec 3) : State := { s with err := e }
def State.setPort (s : State) (p : List PortEvent) : State := { s with port := p }

/-- The block hands an event to the consumer: one append to `OUTQ` (R18, R58). -/
def State.handOver (s : State) (e : Event) : State := { s with outq := s.outq ++ [e] }

/-- `respond C` (R7, R53): the operation ends with response `C`. -/
def State.respond (s : State) (r : Resp) : State := { s with rsp := some r }

/-! ## Errors and reset -/

/-- Recording an error in the sticky `ERR`: it takes the code when it is 0 and keeps its value otherwise (R17, R134). -/
def State.recordError (s : State) (e : ErrCode) : State :=
  if s.err = 0 then s.setErr e.code else s

/-- TAKING AN EXCEPTION, all of it (R133): "an error changes exactly two things: the response code of the word that caused
it, and `ERR` if it was 0". There is no entry, no saved state and no return (R133, R134). -/
def State.raiseError (s : State) (e : ErrCode) (r : Resp) : State :=
  (s.recordError e).respond r

/-- `rst` (R140): every element at its reset value. What the master sends afterwards is the master's and is kept. -/
def State.applyReset (s : State) : State := State.reset.setPort s.port

/-- One stage of the data path, the shape that `DECODE` and `CORRECT` share (R88, R105, in the order of R130): `EMPTY` when
the source is empty, else `BUSY` when the destination is occupied, else the stage's function, whose precondition violation
records its code and writes nothing else (R127), and whose result is committed with `OK`. -/
def State.stage {α β γ : Type} (s : State) (source : Option α) (destination : Option β)
    (f : α → Except ErrCode γ) (commit : γ → State) : State :=
  match source with
  | none => s.respond .empty
  | some a =>
    match destination with
    | some _ => s.respond .busy
    | none =>
      match f a with
      | .error e => s.raiseError e .precond
      | .ok c => (commit c).respond .ok

end Sys2Proof.Machine
end

