-- ==== Sys2Proof/Machine/Operands.lean ====
section
/-! DEFINITION. The operand forms. The word's own operands (formats B, C, N) are assembled by the decoder (spec/30_encoding.md
R51); here are the fields of `CFG` that `SETCFG` writes and `CORRECT` reads (spec/10_state.md R16). -/

namespace Sys2Proof.Machine

/-- `CFG.invert`, bit 0 (R16). -/
def cfgInvert (c : BitVec 2) : Bool := c.getLsbD 0

/-- `CFG.balanced`, bit 1 (R16). -/
def cfgBalanced (c : BitVec 2) : Bool := c.getLsbD 1

/-- The value of `CFG` with the two given bits (R16, R104). -/
def cfgOf (invert balanced : Bool) : BitVec 2 := BitVec.ofBool balanced ++ BitVec.ofBool invert

end Sys2Proof.Machine
end

