-- ==== Sys2Proof/Machine/Corrector.lean ====
section
/-! DEFINITION. The signal corrector (spec/42_corrector.md): the function `correct`, computed on exact integers in quarter
units (spec/00_scope.md R8) and narrowed to `s20` at the end, and the operations SETCFG and CORRECT. -/

namespace Sys2Proof.Machine

/-- Sample `i` of a RawFrame as an integer. Asked only of indices inside the frame (R108). -/
def sampleInt (raw : List Sample) (i : Nat) : Int := ((raw[i]?.getD 0).toNat : Int)

/-- `D4 = 4 * dark = 2 * (raw[10] + raw[11])` (R98). -/
def dark4 (raw : List Sample) : Int :=
  2 * (sampleInt raw Config.darkIdxA + sampleInt raw Config.darkIdxB)

/-- Every sample subtracted from one dark level, in quarter units (R99). -/
def invertBy (d4 : Int) (raw : List Sample) : List Int := raw.map fun x => d4 - 4 * (x.toNat : Int)

/-- `C[i] = D4 - 4 * raw[i]` for every `i`, with the frame's own `D4` (R98, R99). -/
def inverted4 (raw : List Sample) : List Int := invertBy (dark4 raw) raw

/-- The sum of the corrected values at the given indices. -/
def sumAt (xs : List Int) (indices : List Nat) : Int := (indices.map fun i => xs[i]?.getD 0).sum

/-- `O4 = (C[18] + C[20] + C[22] + C[24] - C[19] - C[21] - C[23] - C[25]) / 4` (R100), of the values before any balance
change. The division is exact there. -/
def offset4 (c : List Int) : Int := (sumAt c Config.balEvenIdx - sumAt c Config.balOddIdx) / 4

/-- Subtract one offset at every index `2*i` with `0 <= i < 1847`; the other indices keep their value (R101). -/
def balanceBy (o4 : Int) (c : List Int) : List Int :=
  c.mapIdx fun j x => if j % 2 = 0 ∧ j / 2 < Config.balCount then x - o4 else x

/-- The balance step with the offset of the values it is given: "`O4` is not recomputed after they change" (R100, R101). -/
def balance4 (c : List Int) : List Int := balanceBy (offset4 c) c

/-- The corrected values in quarter units (R97): the identity without `invert`, whatever `balanced` is. -/
def quarters (raw : List Sample) (invert balanced : Bool) : List Int :=
  match invert, balanced with
  | false, _ => raw.map fun x => 4 * (x.toNat : Int)
  | true, false => inverted4 raw
  | true, true => balance4 (inverted4 raw)

/-- `correct(raw, invert, balanced)` (R97): a CorrectedFrame in `s20` (R96), or no value but the precondition violation when
the length is wrong (R108). -/
def correctFrame (raw : List Sample) (invert balanced : Bool) : Except ErrCode (List Corr) :=
  if raw.length ≠ Config.frameWords then .error .precondCorrect
  else .ok ((quarters raw invert balanced).map (BitVec.ofInt 20))

/-- `SETCFG invert, balanced` (R104). -/
def execSetcfg (invert balanced : Bool) (s : State) : Host.Outcome State Fault Refusal :=
  .next <| (s.setCfg (cfgOf invert balanced)).respond .ok

/-- `CORRECT` (R105): `CFG` is read here and nowhere else. -/
def execCorrect (s : State) : Host.Outcome State Fault Refusal :=
  .next <| s.stage s.raw s.out
    (fun raw => (correctFrame raw (cfgInvert s.cfg) (cfgBalanced s.cfg)).map (Event.mk raw))
    fun e => (s.setOut (some e)).setRaw none

end Sys2Proof.Machine
end

