-- ==== Sys2Proof/Machine/Decoder.lean ====
section
/-! DEFINITION. The frame decoder (spec/41_decoder.md): the function `decode`, its inverse, and the operation DECODE. -/

namespace Sys2Proof.Machine

/-- Every contiguous byte pair from an even offset, in order, as one little-endian sample (R86). -/
def samplesOf : List Byte → List Sample
  | lo :: hi :: rest => wordOf lo hi :: samplesOf rest
  | _ => []

/-- `decode(fb)` (R86): a RawFrame, or no value but the precondition violation when the length is wrong (R89). -/
def decodeFrame (fb : List Byte) : Except ErrCode (List Sample) :=
  if fb.length ≠ Config.frameSize then .error .precondDecode else .ok (samplesOf fb)

/-- The inverse of `decode` (R87): `fb[2*i] = raw[i] mod 256`, `fb[2*i+1] = raw[i] div 256`. -/
def bytesOf : List Sample → List Byte
  | [] => []
  | x :: rest => BitVec.ofNat 8 (x.toNat % 256) :: BitVec.ofNat 8 (x.toNat / 256) :: bytesOf rest

/-- `DECODE` (R88). -/
def execDecode (s : State) : Host.Outcome State Fault Refusal :=
  .next <| s.stage s.frm s.raw decodeFrame fun raw => (s.setRaw (some raw)).setFrm none

end Sys2Proof.Machine
end

