-- ==== Sys2Proof/Machine/Flags.lean ====
section
/-! DEFINITION. The three status flags, which are the tags of the stage registers (spec/10_state.md R15), and the status view
(R21): level outputs that add no state. -/

namespace Sys2Proof.Machine

/-- `frm_full` (R15). -/
def State.frmFull (s : State) : Bool := s.frm.isSome

/-- `raw_full` (R15). -/
def State.rawFull (s : State) : Bool := s.raw.isSome

/-- `out_full` (R15). -/
def State.outFull (s : State) : Bool := s.out.isSome

/-- The level outputs of R21. -/
structure Status where
  accLen : Nat
  frmFull : Bool
  rawFull : Bool
  outFull : Bool
  cfg : BitVec 2
  err : BitVec 3
  deriving DecidableEq, Repr

/-- What the master sees at any time, without an operation and without a side effect (R21). -/
def State.status (s : State) : Status where
  accLen := s.acc.length
  frmFull := s.frmFull
  rawFull := s.rawFull
  outFull := s.outFull
  cfg := s.cfg
  err := s.err

end Sys2Proof.Machine
end

