-- ==== Sys2Proof/Machine/Output.lean ====
section
/-! DEFINITION. Output and session control (spec/43_control.md): EMIT, CLEAR; and the signals of the response and output
ports as views (spec/30_encoding.md R58). -/

namespace Sys2Proof.Machine

/-- `EMIT` (R116). -/
def execEmit (s : State) : Host.Outcome State Fault Refusal :=
  .next <|
    match s.out with
    | none => s.respond .empty
    | some e => ((s.handOver e).setOut none).respond .ok

/-- `CLEAR` (R117): `CFG`, `ERR` and `OUTQ` are not changed. -/
def execClear (s : State) : Host.Outcome State Fault Refusal :=
  .next <| ((((s.setAcc []).setFrm none).setRaw none).setOut none).respond .ok

/-- One beat of the output port (R58). -/
structure Beat where
  index : BitVec 12
  raw : Sample
  cor : Corr
  last : Bool
  deriving DecidableEq, Repr

/-- The beats in which an event crosses the output port, in sample-index order (R58). The model's `EMIT` hands them over as
one atomic append to `OUTQ` (log 6). -/
def Event.beats (e : Event) : List Beat :=
  (e.raw.zip e.cor).mapIdx fun i p => ⟨BitVec.ofNat 12 i, p.1, p.2, i == Config.frameWords - 1⟩

/-- The block's answers on the command port (R58). -/
structure PortOut where
  cmdReady : Bool
  rspValid : Bool
  rspCode : BitVec 3
  deriving DecidableEq, Repr

/-- The command port after a step: the last word has been answered, so the block is ready for the next (R58). While
`rspValid` is false the code has no meaning and shows as 0 (log 5). -/
def State.portOut (s : State) : PortOut where
  cmdReady := true
  rspValid := s.rsp.isSome
  rspCode := (s.rsp.map Resp.code).getD 0

end Sys2Proof.Machine
end

