-- ==== Sys2Proof/Machine/Synchronizer.lean ====
section
/-! DEFINITION. The frame synchronizer (spec/40_synchronizer.md): the functions `match_at`, `find_marker`,
`try_extract_frame`, `trim_point`, `frames`, `rest`, and the operations PUSH, EXTRACT, TRIM. -/

namespace Sys2Proof.Machine

/-- The words at offsets `a`, `a + 2`, … of `s` equal the given ones, in order; a word that runs past the end equals none. -/
def wordsAt (s : Memory) (a : Nat) : List Sample → Bool
  | [] => true
  | w :: ws => s.readWord a == some w && wordsAt s (a + 2) ws

/-- `match_at(s, p)` (R66): `p` is even, the window lies inside `s`, and its three words are the marker. -/
def matchAt (s : Memory) (p : Nat) : Bool :=
  p % Config.scanStep == 0 && decide (p + Config.markerBytesLen ≤ s.length) && wordsAt s p Config.markerWords

/-- The scan loop of R67 from offset `p`, at most `fuel` windows: `while p + 6 <= len(s)`, the first match ends it. -/
def scanFrom (s : Memory) : (fuel p : Nat) → Option Nat
  | 0, _ => none
  | fuel + 1, p =>
    if p + Config.markerBytesLen ≤ s.length then
      if matchAt s p then some p else scanFrom s fuel (p + Config.scanStep)
    else none

/-- `find_marker(s)` (R67): the least match offset. The loop makes fewer turns than `s` has bytes. -/
def findMarker (s : Memory) : Option Nat := scanFrom s s.length 0

/-- `try_extract_frame(s)` (R65, R68): the frame bytes and the remainder, or `none` ("no frame yet"). -/
def tryExtractFrame (s : Memory) : Option (List Byte × Memory) :=
  match findMarker s with
  | none => none
  | some p =>
    if p + Config.frameSize ≤ s.length then
      some ((s.drop p).take Config.frameSize, s.dropFront (p + Config.frameSize))
    else none

/-- The least multiple of the scan step that is at least `n`: the least even number `k >= n` (R72). -/
def evenCeil (n : Nat) : Nat := (n + (Config.scanStep - 1)) / Config.scanStep * Config.scanStep

/-- `trim_point(s)` (R72): the first match; without one, nothing of a short sequence, else all before the least even offset
at which a marker could still begin. -/
def trimPoint (s : Memory) : Nat :=
  match findMarker s with
  | some p => p
  | none =>
    if s.length ≤ Config.markerBytesLen - 1 then 0
    else evenCeil (s.length - (Config.markerBytesLen - 1))

/-- Repeated extraction, at most `fuel` times: the frames in order and what is left (R74). -/
def cutFrames : (fuel : Nat) → Memory → List (List Byte) × Memory
  | 0, s => ([], s)
  | fuel + 1, s =>
    match tryExtractFrame s with
    | none => ([], s)
    | some (f, r) => (f :: (cutFrames fuel r).1, (cutFrames fuel r).2)

/-- `frames(s)` (R74). Every frame takes at least one byte, so `len(s)` turns are enough. -/
def frames (s : Memory) : List (List Byte) := (cutFrames s.length s).1

/-- `rest(s)` (R74). -/
def rest (s : Memory) : Memory := (cutFrames s.length s).2

/-- `PUSH byte` (R69). -/
def execPush (byte : Byte) (s : State) : Host.Outcome State Fault Refusal :=
  .next <|
    if atCapacity s.acc.length then s.respond .full
    else (s.setAcc (s.acc.append byte)).respond .ok

/-- `EXTRACT` (R70): `BUSY` is tested first, and then the accumulator is not scanned. -/
def execExtract (s : State) : Host.Outcome State Fault Refusal :=
  .next <|
    match s.frm with
    | some _ => s.respond .busy
    | none =>
      match tryExtractFrame s.acc with
      | none => s.respond .none
      | some (f, r) => ((s.setFrm (some f)).setAcc r).respond .ok

/-- `TRIM` (R73). -/
def execTrim (s : State) : Host.Outcome State Fault Refusal :=
  .next <|
    if trimPoint s.acc = 0 then s.respond .none
    else (s.setAcc (s.acc.dropFront (trimPoint s.acc))).respond .ok

end Sys2Proof.Machine
end

