-- ==== Sys2Proof/Machine/Dispatch.lean ====
section
/-! DEFINITION. One arm per operation, each one call of its meaning. -/

namespace Sys2Proof.Machine

def exec (i : Instr) (s : State) : Host.Outcome State Fault Refusal :=
  match i with
  | .push byte => Sys2Proof.Machine.execPush byte s
  | .extract => Sys2Proof.Machine.execExtract s
  | .trim => Sys2Proof.Machine.execTrim s
  | .decode => Sys2Proof.Machine.execDecode s
  | .setcfg invert balanced => Sys2Proof.Machine.execSetcfg invert balanced s
  | .correct => Sys2Proof.Machine.execCorrect s
  | .emit => Sys2Proof.Machine.execEmit s
  | .clear => Sys2Proof.Machine.execClear s

end Sys2Proof.Machine
end

