-- ==== Sys2Proof/Machine/CommandPort.lean ====
section
/-! DEFINITION. The command port (spec/30_encoding.md R49, R53, R55): every word is decoded, legality first (spec/60_exceptions.md
R130), and answered with one response. -/

namespace Sys2Proof.Machine

/-- The answer to one transaction word: the operation it decodes to, or, when it is illegal, the response `ILLEGAL` and the
record of `ILLEGAL_TW`, and nothing else (R55). -/
def answer (tw : TWord) (s : State) : Host.Outcome State Fault Refusal :=
  match decodeWord tw with
  | .ok i => exec i s
  | .error _ => .next (s.raiseError .illegalTw .illegal)

/-- What the next event of the port does, the event already taken from the port (R58, R140). -/
def takeEvent (e : PortEvent) (s : State) : Host.Outcome State Fault Refusal :=
  match e with
  | .word tw => answer tw s
  | .rst _ => .next s.applyReset

/-- The block with one more word presented before all that the master sends next. -/
def State.presentWord (s : State) (tw : TWord) : State := s.setPort (.word tw :: s.port)

end Sys2Proof.Machine
end

