-- ==== Sys2Proof/Machine/Asm.lean ====
section
/-! DEFINITION. The assembler spelling of spec/30_encoding.md R56: how an operation is written, and how a line is read. Text is
a list of characters. What R56 leaves open of the spelling (which digits, how much space) is log 11. -/

namespace Sys2Proof.Machine

/-- The mnemonic, in upper case (R56). -/
def opName : Op → List Char
  | .push => ['P', 'U', 'S', 'H']
  | .extract => ['E', 'X', 'T', 'R', 'A', 'C', 'T']
  | .trim => ['T', 'R', 'I', 'M']
  | .decode => ['D', 'E', 'C', 'O', 'D', 'E']
  | .setcfg => ['S', 'E', 'T', 'C', 'F', 'G']
  | .correct => ['C', 'O', 'R', 'R', 'E', 'C', 'T']
  | .emit => ['E', 'M', 'I', 'T']
  | .clear => ['C', 'L', 'E', 'A', 'R']

/-- The name of a response (R53), as it stands after the arrow of a line. -/
def respName : Resp → List Char
  | .ok => ['O', 'K']
  | .none => ['N', 'O', 'N', 'E']
  | .busy => ['B', 'U', 'S', 'Y']
  | .empty => ['E', 'M', 'P', 'T', 'Y']
  | .full => ['F', 'U', 'L', 'L']
  | .illegal => ['I', 'L', 'L', 'E', 'G', 'A', 'L']
  | .precond => ['P', 'R', 'E', 'C', 'O', 'N', 'D']

/-- The sixteen digits. -/
def hexDigits : List Char := ['0', '1', '2', '3', '4', '5', '6', '7', '8', '9', 'A', 'B', 'C', 'D', 'E', 'F']

/-- A byte as two hexadecimal digits with `0x` (R56). -/
def renderByte (b : Byte) : List Char :=
  ['0', 'x', hexDigits.getD (b.toNat / 16) '0', hexDigits.getD (b.toNat % 16) '0']

/-- One bit (R56). -/
def renderBit (b : Bool) : Char := if b then '1' else '0'

/-- The line of an operation (R56). -/
def renderInstr (i : Instr) : List Char :=
  match i with
  | .push byte => opName i.op ++ ' ' :: renderByte byte
  | .setcfg invert balanced => opName i.op ++ [' ', renderBit invert, ',', ' ', renderBit balanced]
  | _ => opName i.op

/-- The parts of a line. -/
inductive Token where
  | text (cs : List Char)
  | comma
  | arrow
  deriving DecidableEq, Repr

/-- The text gathered so far, if any; `cur` holds it last character first. -/
def flushText (cur : List Char) : List Token := if cur = [] then [] else [.text cur.reverse]

/-- A line's tokens: spaces and tabs separate, a semicolon starts a comment to the end of the line (R56). -/
def lexLine : List Char → List Char → List Token
  | [], cur => flushText cur
  | ';' :: _, cur => flushText cur
  | ',' :: k, cur => flushText cur ++ .comma :: lexLine k []
  | '-' :: '>' :: k, cur => flushText cur ++ .arrow :: lexLine k []
  | c :: k, cur => if c = ' ' ∨ c = '\t' then flushText cur ++ lexLine k [] else lexLine k (c :: cur)

/-- The value of a digit; hexadecimal letters in either case. -/
def digitValue (c : Char) : Option Nat := (hexDigits.findIdx? (· == c.toUpper))

/-- A number in a base, digit by digit, none for no digits. -/
def numberIn (base : Nat) : List Char → Option Nat → Option Nat
  | [], acc => acc
  | c :: k, acc =>
    match digitValue c with
    | some d => if d < base then numberIn base k (some (acc.getD 0 * base + d)) else none
    | none => none

/-- "the byte in hexadecimal with `0x`, or in decimal" (R56). -/
def parseByte (cs : List Char) : Option Byte :=
  let value := match cs with
    | '0' :: 'x' :: k => numberIn 16 k none
    | k => numberIn 10 k none
  match value with
  | some n => if n < 256 then some (BitVec.ofNat 8 n) else none
  | none => none

/-- "each `0` or `1`" (R56). -/
def parseBit (cs : List Char) : Option Bool :=
  match cs with
  | ['0'] => some false
  | ['1'] => some true
  | _ => none

/-- The operations that take no operand (R56). -/
def plainInstrs : List Instr := [.extract, .trim, .decode, .correct, .emit, .clear]

/-- The operation of a line's tokens: the mnemonic, then its operands separated by commas (R56). -/
def parseInstr : List Token → Option Instr
  | [.text m] => plainInstrs.find? fun i => m == opName i.op
  | [.text m, .text a] => if m = opName .push then (parseByte a).map Instr.push else none
  | [.text m, .text a, .comma, .text b] =>
    if m = opName .setcfg then
      match parseBit a, parseBit b with
      | some i, some j => some (.setcfg i j)
      | _, _ => none
    else none
  | _ => none

/-- The response named by a text (R53). -/
def parseResp (cs : List Char) : Option Resp :=
  [Resp.ok, .none, .busy, .empty, .full, .illegal, .precond].find? fun r => cs == respName r

/-- What a line says: an operation, and the response it asserts for a test, "not part of the word" (R56). -/
structure SourceLine where
  instr : Instr
  expect : Option Resp
  deriving DecidableEq, Repr

/-- A line read (R56): `none` for a line that is no operation, `some none` for one that holds only space or a comment. -/
def parseLine (cs : List Char) : Option (Option SourceLine) :=
  let tokens := lexLine cs []
  if tokens = [] then some none
  else
    let body := tokens.takeWhile (· != .arrow)
    match parseInstr body, tokens.dropWhile (· != .arrow) with
    | some i, [] => some (some ⟨i, none⟩)
    | some i, [.arrow, .text r] => (parseResp r).map fun r => some ⟨i, some r⟩
    | _, _ => none

end Sys2Proof.Machine
end

