-- ==== Sys2Proof/Machine/Session.lean ====
section
/-! DEFINITION. Runs: what a finite sequence of transaction words does (spec/70_reset_and_hazards.md R153), what crosses the
block on the way (spec/40_synchronizer.md R76, spec/43_control.md R118), and the pseudo-operations of spec/30_encoding.md R57,
which are the master's and expand to words or loop over them. -/

namespace Sys2Proof.Machine

/-- The state after one word is answered. -/
def State.send (s : State) (tw : TWord) : State :=
  match answer tw s with
  | .next t => t
  | .refused _ => s

/-- The state after an operation's own word. -/
def State.sendOp (s : State) (i : Instr) : State := s.send (encode i)

/-- The end state of a run (R153). -/
def runWords : State → List TWord → State
  | s, [] => s
  | s, w :: ws => runWords (s.send w) ws

/-- The responses of a run, one for each word (R53). -/
def responses : State → List TWord → List (Option Resp)
  | _, [] => []
  | s, w :: ws => (s.send w).rsp :: responses (s.send w) ws

/-- Whether a word is the given operation, with any operands. -/
def isOp (o : Op) (tw : TWord) : Bool :=
  match decodeWord tw with
  | .ok i => i.op == o
  | .error _ => false

/-- `S` of R76: "the concatenation, in order, of all bytes whose `PUSH` responded `OK`". -/
def acceptedBytes : State → List TWord → List Byte
  | _, [] => []
  | s, w :: ws =>
    (match decodeWord w, (s.send w).rsp with
      | .ok (.push b), some .ok => [b]
      | _, _ => []) ++ acceptedBytes (s.send w) ws

/-- The frames written to `FRM` over a run, in order (R76). -/
def extractedFrames : State → List TWord → List (List Byte)
  | _, [] => []
  | s, w :: ws =>
    (match decodeWord w, (s.send w).rsp with
      | .ok .extract, some .ok => (s.send w).frm.toList
      | _, _ => []) ++ extractedFrames (s.send w) ws

/-- The value of `CFG` at each `CORRECT` that responded `OK`, in order (R118). -/
def correctModes : State → List TWord → List (BitVec 2)
  | _, [] => []
  | s, w :: ws =>
    (match decodeWord w, (s.send w).rsp with
      | .ok .correct, some .ok => [s.cfg]
      | _, _ => []) ++ correctModes (s.send w) ws

/-- The event that a frame gives under a value of `CFG`: `(decode(F), correct(decode(F), i, b))` (R118); no value for a frame
of a wrong length. -/
def eventOf (f : List Byte) (c : BitVec 2) : Option Event :=
  match decodeFrame f with
  | .error _ => none
  | .ok raw =>
    match correctFrame raw (cfgInvert c) (cfgBalanced c) with
    | .error _ => none
    | .ok cor => some ⟨raw, cor⟩

/-- `FRAME` (R57). -/
def frameOps : List TWord := [Instr.extract, .decode, .correct, .emit].map encode

/-- The six bytes of the marker in arrival order (R46). -/
def markerBytes : List Byte := bytesOf Config.markerWords

/-- `DRAIN` (R57), at most `fuel` turns: `FRAME` repeated until its `EXTRACT` responds `NONE`. -/
def drainFrom : (fuel : Nat) → State → State
  | 0, s => s
  | fuel + 1, s =>
    if (s.sendOp .extract).rsp = some .none then runWords s frameOps
    else drainFrom fuel (runWords s frameOps)

/-- `DRAIN` (R57). Each turn whose `EXTRACT` succeeds shortens `ACC`; at most three turns first empty occupied registers. -/
def drain (s : State) : State := drainFrom (s.acc.length + 4) s

/-- A sequence written with the pseudo-operations of R57; `rep n body k` is `REP n` around the lines of `body`. -/
inductive Script where
  | done
  | op (i : Instr) (k : Script)
  | pushs (bytes : List Byte) (k : Script)
  | pushm (k : Script)
  | rep (n : Nat) (body k : Script)
  | frame (k : Script)
  | drain (k : Script)
  deriving DecidableEq, Repr

/-- The operations a script stands for (R57); none where it holds `DRAIN`, "a loop in the master", which is no fixed
sequence. -/
def Script.expand : Script → Option (List Instr)
  | .done => some []
  | .op i k => (k.expand).map (i :: ·)
  | .pushs bytes k => (k.expand).map (bytes.map Instr.push ++ ·)
  | .pushm k => (k.expand).map (markerBytes.map Instr.push ++ ·)
  | .rep n body k =>
    match body.expand, k.expand with
    | some b, some l => some ((List.replicate n b).flatten ++ l)
    | _, _ => none
  | .frame k => (k.expand).map ([Instr.extract, .decode, .correct, .emit] ++ ·)
  | .drain _ => none

/-- What the master does with a script: sends its words in order, and loops where `DRAIN` stands (R57). -/
def Script.run : Script → State → State
  | .done, s => s
  | .op i k, s => k.run (s.sendOp i)
  | .pushs bytes k, s => k.run (runWords s (bytes.map fun b => encode (.push b)))
  | .pushm k, s => k.run (runWords s (markerBytes.map fun b => encode (.push b)))
  | .rep n body k, s => k.run (Nat.repeat body.run n s)
  | .frame k, s => k.run (runWords s frameOps)
  | .drain k, s => k.run (Sys2Proof.Machine.drain s)

end Sys2Proof.Machine
end

