-- ==== Sys2Proof/Safety.lean ====
section
/-! DEFINITION. What counts as a safe run: the invariants of spec/10_state.md R23, and when a run has gone wrong or is complete
(spec/70_reset_and_hazards.md R153). -/

namespace Sys2Proof.Machine

/-- R23 (b), of a frame in `FRM`. -/
def FrameOk (f : List Byte) : Prop :=
  f.length = Config.frameSize ∧ f.take Config.markerBytesLen = markerBytes

/-- R23 (c), of a RawFrame in `RAW` or in a pair; every sample is in 0 to 65535 by its type. -/
def RawOk (r : List Sample) : Prop :=
  r.length = Config.frameWords ∧ r.take Config.markerWords.length = Config.markerWords

/-- R23 (d), of a pair in `OUT` or in `OUTQ`. -/
def EventOk (e : Event) : Prop :=
  RawOk e.raw ∧ e.cor.length = Config.frameWords ∧
    ∃ invert balanced, correctFrame e.raw invert balanced = .ok e.cor

/-- The invariants of R23, one field per clause. -/
structure BlockInv (s : State) : Prop where
  /-- (a) -/
  acc : Memory.wf s.acc
  /-- (b) -/
  frm : ∀ f, s.frm = some f → FrameOk f
  /-- (c) -/
  raw : ∀ r, s.raw = some r → RawOk r
  /-- (d) -/
  out : ∀ e, s.out = some e → EventOk e
  /-- (e) -/
  outq : ∀ e ∈ s.outq, EventOk e
  /-- (f) -/
  err : s.err = 0 ∨ s.err = ErrCode.illegalTw.code

/-- A run "has gone wrong exactly when `ERR != 0` at its end" (R153). -/
def State.goneWrong (s : State) : Bool := s.err != 0

/-- The three stage registers are `Empty`. -/
def State.stagesEmpty (s : State) : Prop := s.frm = none ∧ s.raw = none ∧ s.out = none

/-- A run is complete: "nothing more can come out without more bytes" (R153). -/
def State.complete (s : State) : Prop := s.stagesEmpty ∧ tryExtractFrame s.acc = none

/-- Where a session starts (R118, R143): nothing carried over. -/
def State.sessionStart (s : State) : Prop := s.acc = [] ∧ s.stagesEmpty

end Sys2Proof.Machine
end

