-- ==== Sys2Proof/Certificates/Slice0/Obligations.lean ====
section
/-! DEFINITION. The statements for the provers. Each docstring names the rule of spec/ it comes from, and the log entry where a
clause is the model's choice. -/

open Sys2Proof Sys2Proof.Machine

/-! ## The transaction word -/

/-- R49 to R52: decoding and encoding agree on every word and every operation, so no bit of a word is dropped and no word
stands for two operations. -/
def Obligations.DecodeAndEncodeAgree : Prop :=
  ∀ (tw : TWord) (i : Instr), decodeWord tw = .ok i ↔ tw = encode i

/-- R50 to R52 on words written out from the operation map. -/
def Obligations.WrittenWordsDecode : Prop :=
  decodeWord 0x019D = .ok (.push 0x9D) ∧ decodeWord 0x0200 = .ok .extract ∧ decodeWord 0x0300 = .ok .trim ∧
  decodeWord 0x0400 = .ok .decode ∧ decodeWord 0x0501 = .ok (.setcfg true false) ∧
  decodeWord 0x0502 = .ok (.setcfg false true) ∧ decodeWord 0x0600 = .ok .correct ∧
  decodeWord 0x0700 = .ok .emit ∧ decodeWord 0x0800 = .ok .clear

/-- R55, whole: which words are illegal, that there are 266 legal ones, that the decoder is total, and what an illegal word
does, whatever the state. -/
def Obligations.IllegalWords : Prop :=
  (∀ tw : TWord, (∃ e, decodeWord tw = .error e) ↔
    (tw.toNat / 256 = 0 ∨ 9 ≤ tw.toNat / 256 ∨
      (tw.toNat / 256 ∈ [2, 3, 4, 6, 7, 8] ∧ tw.toNat % 256 ≠ 0) ∨
      (tw.toNat / 256 = 5 ∧ tw.toNat % 256 / 4 ≠ 0))) ∧
  (∃ legal : List TWord, legal.Nodup ∧ legal.length = 266 ∧ ∀ tw, tw ∈ legal ↔ ∃ i, decodeWord tw = .ok i) ∧
  (∀ (tw : TWord) (e : Illegal) (s : State), decodeWord tw = .error e →
    answer tw s = .next { s with err := if s.err = 0 then 3 else s.err, rsp := some .illegal })

/-- R53: one response to every word, with the codes and the table of which operation can give which; only `OK` changes the
data path; `NONE`, `BUSY`, `EMPTY`, `FULL` do not touch `ERR`. -/
def Obligations.EveryWordGetsOneResponse : Prop :=
  ([Resp.ok, .none, .busy, .empty, .full, .illegal, .precond].map Resp.code = [0, 1, 2, 3, 4, 5, 6]) ∧
  ∀ (tw : TWord) (s : State), ∃ t r, answer tw s = .next t ∧ t.rsp = some r ∧
    (match decodeWord tw with
      | .ok (.push _) => r ∈ [Resp.ok, .full]
      | .ok .extract => r ∈ [Resp.ok, .none, .busy]
      | .ok .trim => r ∈ [Resp.ok, .none]
      | .ok .decode => r ∈ [Resp.ok, .busy, .empty, .precond]
      | .ok (.setcfg _ _) => r = .ok
      | .ok .correct => r ∈ [Resp.ok, .busy, .empty, .precond]
      | .ok .emit => r ∈ [Resp.ok, .empty]
      | .ok .clear => r = .ok
      | .error _ => r = .illegal) ∧
    (r ≠ .ok → t.acc = s.acc ∧ t.frm = s.frm ∧ t.raw = s.raw ∧ t.out = s.out ∧ t.cfg = s.cfg ∧ t.outq = s.outq) ∧
    (r ∉ [Resp.illegal, .precond] → t.err = s.err)

/-! ## Steps, runs, reset -/

/-- R136: a step takes the next word and runs the operation it decodes to, on the state with that word taken from the port;
with no word coming the block waits (the port field is the model's, log 3). -/
def Obligations.StepRunsTheDecodedWord : Prop :=
  (∀ (s : State) (tw : TWord) (k : List PortEvent) (i : Instr),
    s.port = .word tw :: k → decodeWord tw = .ok i → step s = exec i { s with port := k }) ∧
  (∀ s : State, s.port = [] → step s = .next s)

/-- R22, R140: reset at any time, from any state, with any word in progress, leaves every element at its reset value, and the
block then waits for a word; the state `State.reset` has the same values. The model's own choices in it are that what the master
still sends stays (log 3) and that no response is shown (log 5). -/
def Obligations.ResetFromAnyState : Prop :=
  (∀ (s : State) (w : Option TWord) (k : List PortEvent), s.port = .rst w :: k →
    ∃ t, step s = .next t ∧ t.acc = [] ∧ t.frm = none ∧ t.raw = none ∧ t.out = none ∧ t.cfg = 0 ∧ t.err = 0 ∧
      t.outq = [] ∧ t.rsp = none ∧ t.port = k ∧ (k = [] → step t = .next t)) ∧
  State.reset = { acc := [], frm := none, raw := none, out := none, cfg := 0, err := 0, outq := [], rsp := none, port := [] }

/-- Whatever the master sends, and for any number of steps, the model's block never stops. That no step faults or refuses is the
model's inference (log 10, DEDUCED), from the liberties of the master (R152) and from what an error does (R127, R133, R134). -/
def Obligations.NoRunStops : Prop :=
  ∀ (k : Nat) (s : State), ∃ t, Host.Core.run core k s = .next t

/-- R39, R153: a run of words, answered one by one, is as many steps of the machine with those words on its port
(the port is the model's own field, log 3). -/
def Obligations.RunsAreSteps : Prop :=
  ∀ (s : State) (ws : List TWord),
    Host.Core.run core ws.length { s with port := ws.map .word } = .next { runWords s ws with port := [] }

/-- R36: repeating `SETCFG` or `CLEAR` changes nothing more. -/
def Obligations.SetcfgAndClearAreIdempotent : Prop :=
  ∀ (s t : State) (i : Instr), i = .clear ∨ (∃ a b, i = .setcfg a b) → exec i s = .next t → exec i t = .next t

/-- R58: the beats in which an emitted pair crosses the output port. -/
def Obligations.BeatsOfAnEvent : Prop :=
  ∀ e : Event, e.raw.length = 3694 → e.cor.length = 3694 →
    e.beats.length = 3694 ∧
    ∀ i < 3694, ∃ x c, e.raw[i]? = some x ∧ e.cor[i]? = some c ∧
      e.beats[i]? = some { index := BitVec.ofNat 12 i, raw := x, cor := c, last := decide (i = 3693) }

/-- R56: the written line of an operation, alone, with a comment, or with an asserted response, is read as that operation (the
details of the spelling are log 11). -/
def Obligations.WrittenLinesAreRead : Prop :=
  ∀ (i : Instr) (r : Resp),
    parseLine (renderInstr i) = some (some { instr := i, expect := none }) ∧
    parseLine (renderInstr i ++ [' ', ';', 'x']) = some (some { instr := i, expect := none }) ∧
    parseLine (renderInstr i ++ [' ', '-', '>', ' '] ++ respName r) = some (some { instr := i, expect := some r })

/-! ## Errors -/

/-- R133, whole: an error changes its response and `ERR` if that was 0, and nothing else. -/
def Obligations.ErrorsArePrecise : Prop :=
  ∀ (tw : TWord) (s t : State), answer tw s = .next t → t.rsp = some .illegal ∨ t.rsp = some .precond →
    ∃ e : ErrCode, t = { s with err := if s.err = 0 then e.code else s.err, rsp := t.rsp }

/-- R17, R134: no sequence of words clears `ERR` or replaces the first code; from 0, a run leaves 0 or one of the three codes of
R125. -/
def Obligations.ErrIsSticky : Prop :=
  ∀ (ws : List TWord) (s : State),
    (s.err ≠ 0 → (runWords s ws).err = s.err) ∧
    (s.err = 0 → (runWords s ws).err = 0 ∨ ∃ e : ErrCode, (runWords s ws).err = e.code)

/-- R127: a violated precondition writes no frame, keeps the source register, records its code, and responds `PRECOND`. -/
def Obligations.PreconditionViolation : Prop :=
  (∀ (s : State) (f : List Byte), s.frm = some f → f.length ≠ 7388 → s.raw = none →
    exec .decode s = .next { s with err := if s.err = 0 then 1 else s.err, rsp := some .precond }) ∧
  (∀ (s : State) (r : List Sample), s.raw = some r → r.length ≠ 3694 → s.out = none →
    exec .correct s = .next { s with err := if s.err = 0 then 2 else s.err, rsp := some .precond })

/-- R128: from a state that meets the invariants no sequence of words is answered `PRECOND` or leaves `ERR` at 1 or 2. -/
def Obligations.PreconditionsHold : Prop :=
  ∀ (ws : List TWord) (s : State), BlockInv s →
    (∀ f, s.frm = some f → ∃ raw, decodeFrame f = .ok raw) ∧
    (∀ r, s.raw = some r → ∀ i b, ∃ cor, correctFrame r i b = .ok cor) ∧
    some Resp.precond ∉ responses s ws ∧
    (runWords s ws).err ≠ ErrCode.precondDecode.code ∧ (runWords s ws).err ≠ ErrCode.precondCorrect.code

/-! ## The operations, each whole -/

/-- R69, whole: `PUSH` at `ACC_CAP` answers `FULL` and changes nothing; else it appends its byte and reads no other element. -/
def Obligations.PushAppendsOrIsFull : Prop :=
  ∀ (b : Byte) (s : State),
    exec (.push b) s = .next (if Config.accCap = some s.acc.length then { s with rsp := some .full }
      else { s with acc := s.acc ++ [b], rsp := some .ok }) ∧
    (encode (.push b)).toNat = 0x0100 + b.toNat

/-- R69, R30, R4: where `PUSH` completes whatever the capacity is (a capacity is at least `FRAME_SIZE` by R4, so fewer than 7388
bytes leave room), and every byte of memory after it: the stored byte at offset
`len(ACC)`, every other offset as before. -/
def Obligations.PushCompletes : Prop :=
  ∀ (b : Byte) (s : State), s.acc.length < 7388 →
    ∃ t, exec (.push b) s = .next t ∧ t = { s with acc := t.acc, rsp := some .ok } ∧
      t.acc.length = s.acc.length + 1 ∧ Memory.read t.acc s.acc.length = some b ∧
      ∀ a, a ≠ s.acc.length → Memory.read t.acc a = Memory.read s.acc a

/-- R70: the three answers of `EXTRACT` in their order, and all that each does. -/
def Obligations.ExtractCutsTheFirstFrame : Prop :=
  ∀ s : State,
    (∀ f, s.frm = some f → exec .extract s = .next { s with rsp := some .busy }) ∧
    (s.frm = none → tryExtractFrame s.acc = none → exec .extract s = .next { s with rsp := some .none }) ∧
    (∀ f r, s.frm = none → tryExtractFrame s.acc = some (f, r) →
      exec .extract s = .next { s with frm := some f, acc := r, rsp := some .ok } ∧
      ∃ p, findMarker s.acc = some p ∧ p % 2 = 0 ∧ s.acc.length = p + 7388 + r.length ∧
        ∀ a, Memory.read r a = Memory.read s.acc (p + 7388 + a)) ∧
    encode .extract = 0x0200

/-- R73: `TRIM` and its corner cases (b) to (f). -/
def Obligations.TrimDropsThePrefix : Prop :=
  ∀ s : State,
    (trimPoint s.acc = 0 → exec .trim s = .next { s with rsp := some .none }) ∧
    (trimPoint s.acc ≠ 0 → ∃ t, exec .trim s = .next t ∧
      t = { s with acc := s.acc.drop (trimPoint s.acc), rsp := some .ok } ∧
      trimPoint s.acc % 2 = 0 ∧
      (∀ a, Memory.read t.acc a = Memory.read s.acc (trimPoint s.acc + a)) ∧
      (findMarker s.acc = none → t.acc.length = 4 ∨ t.acc.length = 5) ∧
      (findMarker s.acc ≠ none → findMarker t.acc = some 0) ∧
      exec .trim t = .next { t with rsp := some .none } ∧
      ∀ more, frames (t.acc ++ more) = frames (s.acc ++ more)) ∧
    encode .trim = 0x0300

/-- R88, whole: the answers of `DECODE` in their order (R130), and all that each does. -/
def Obligations.DecodeMovesTheFrame : Prop :=
  ∀ s : State,
    (s.frm = none → exec .decode s = .next { s with rsp := some .empty }) ∧
    (∀ f r, s.frm = some f → s.raw = some r → exec .decode s = .next { s with rsp := some .busy }) ∧
    (∀ f, s.frm = some f → s.raw = none → f.length = 7388 →
      ∃ raw, decodeFrame f = .ok raw ∧ raw.length = 3694 ∧
        exec .decode s = .next { s with raw := some raw, frm := none, rsp := some .ok } ∧
        (FrameOk f → raw.take 3 = [157, 58, 71])) ∧
    (∀ f, s.frm = some f → s.raw = none → f.length ≠ 7388 →
      exec .decode s = .next { s with err := if s.err = 0 then 1 else s.err, rsp := some .precond }) ∧
    encode .decode = 0x0400

/-- R104: `SETCFG` writes its two bits and nothing else, whatever the state, and its word; a word of its code with a reserved bit
set leaves `CFG` unchanged. -/
def Obligations.SetcfgWritesTheModes : Prop :=
  (∀ (i b : Bool) (s : State),
    (∃ t, exec (.setcfg i b) s = .next t ∧ t = { s with cfg := t.cfg, rsp := some .ok } ∧
      t.cfg.toNat = 2 * b.toNat + i.toNat ∧ cfgInvert t.cfg = i ∧ cfgBalanced t.cfg = b) ∧
    (encode (.setcfg i b)).toNat = 0x0500 + 2 * b.toNat + i.toNat) ∧
  (∀ (tw : TWord) (s t : State), tw.toNat / 256 = 5 → tw.toNat % 256 / 4 ≠ 0 → answer tw s = .next t →
    t.rsp = some .illegal ∧ t.cfg = s.cfg)

/-- R105, whole: the answers of `CORRECT` in their order (R130), and all that each does; the modes are those of `CFG` now. -/
def Obligations.CorrectMovesTheFrame : Prop :=
  ∀ s : State,
    (s.raw = none → exec .correct s = .next { s with rsp := some .empty }) ∧
    (∀ r e, s.raw = some r → s.out = some e → exec .correct s = .next { s with rsp := some .busy }) ∧
    (∀ r, s.raw = some r → s.out = none → r.length = 3694 →
      ∃ cor, correctFrame r (s.cfg.getLsbD 0) (s.cfg.getLsbD 1) = .ok cor ∧ cor.length = 3694 ∧
        exec .correct s = .next { s with out := some { raw := r, cor := cor }, raw := none, rsp := some .ok } ∧
        (s.cfg.getLsbD 0 = false → cor.map BitVec.toInt = r.map fun x => 4 * (x.toNat : Int))) ∧
    (∀ r, s.raw = some r → s.out = none → r.length ≠ 3694 →
      exec .correct s = .next { s with err := if s.err = 0 then 2 else s.err, rsp := some .precond }) ∧
    encode .correct = 0x0600

/-- R116, whole: `EMIT` hands the pair over unchanged and empties `OUT`, or answers `EMPTY`; no other word adds to `OUTQ`. -/
def Obligations.EmitHandsOver : Prop :=
  ∀ s : State,
    (s.out = none → exec .emit s = .next { s with rsp := some .empty }) ∧
    (∀ e, s.out = some e → exec .emit s = .next { s with outq := s.outq ++ [e], out := none, rsp := some .ok }) ∧
    (∀ tw t, answer tw s = .next t → t.outq ≠ s.outq → decodeWord tw = .ok .emit) ∧
    encode .emit = 0x0700

/-- R117, R141: `CLEAR` empties `ACC`, `FRM`, `RAW`, `OUT` and keeps `CFG`, `ERR`, `OUTQ`, which reset does not. -/
def Obligations.ClearStartsASession : Prop :=
  (∀ s : State, exec .clear s = .next { s with acc := [], frm := none, raw := none, out := none, rsp := some .ok }) ∧
  (∀ s : State, s.applyReset.acc = [] ∧ s.applyReset.frm = none ∧ s.applyReset.raw = none ∧ s.applyReset.out = none ∧
    s.applyReset.cfg = 0 ∧ s.applyReset.err = 0 ∧ s.applyReset.outq = []) ∧
  encode .clear = 0x0800

/-- The frame of the operations that store nothing in memory: `DECODE`, `SETCFG`, `CORRECT`, `EMIT` and every illegal word
leave every byte of `ACC` (which element else each may change is `WritersOfEachElement`). The last clause, that they leave what
the master still sends, is about the model's own field `port` (log 3, DESIGN CHOICE). -/
def Obligations.OperationsOffMemoryLeaveIt : Prop :=
  ∀ (tw : TWord) (s t : State), answer tw s = .next t →
    ¬ (isOp .push tw ∨ isOp .extract tw ∨ isOp .trim tw ∨ isOp .clear tw) →
    (∀ a, Memory.read t.acc a = Memory.read s.acc a) ∧ t.acc = s.acc ∧ t.port = s.port

/-- The table of R22, read as a rule over all words: which operations can change which element. -/
def Obligations.WritersOfEachElement : Prop :=
  ∀ (tw : TWord) (s t : State), answer tw s = .next t →
    (t.acc ≠ s.acc → isOp .push tw ∨ isOp .extract tw ∨ isOp .trim tw ∨ isOp .clear tw) ∧
    (t.frm ≠ s.frm → isOp .extract tw ∨ isOp .decode tw ∨ isOp .clear tw) ∧
    (t.raw ≠ s.raw → isOp .decode tw ∨ isOp .correct tw ∨ isOp .clear tw) ∧
    (t.out ≠ s.out → isOp .correct tw ∨ isOp .emit tw ∨ isOp .clear tw) ∧
    (t.cfg ≠ s.cfg → isOp .setcfg tw) ∧
    (t.outq ≠ s.outq → isOp .emit tw) ∧
    (t.err ≠ s.err → s.err = 0 ∧ (t.rsp = some .illegal ∨ t.rsp = some .precond))

/-- R15: a flag is set and cleared only as its register is filled and emptied. -/
def Obligations.FlagsFollowTheRegisters : Prop :=
  ∀ (tw : TWord) (s t : State), answer tw s = .next t →
    (s.frmFull = false → t.frmFull = true → isOp .extract tw) ∧
    (s.frmFull = true → t.frmFull = false → isOp .decode tw ∨ isOp .clear tw) ∧
    (s.rawFull = false → t.rawFull = true → isOp .decode tw) ∧
    (s.rawFull = true → t.rawFull = false → isOp .correct tw ∨ isOp .clear tw) ∧
    (s.outFull = false → t.outFull = true → isOp .correct tw) ∧
    (s.outFull = true → t.outFull = false → isOp .emit tw ∨ isOp .clear tw)

/-- R10, R34: the only changes of the accumulator: one byte at the end, an even number of bytes off the front, or all of it by
`CLEAR`. -/
def Obligations.AccumulatorChanges : Prop :=
  ∀ (tw : TWord) (s t : State), answer tw s = .next t →
    t.acc = s.acc ∨
    (∃ b, decodeWord tw = .ok (.push b) ∧ t.acc = s.acc ++ [b]) ∨
    (∃ p, decodeWord tw = .ok .extract ∧ findMarker s.acc = some p ∧ p % 2 = 0 ∧ p + 7388 ≤ s.acc.length ∧
      t.acc = s.acc.drop (p + 7388)) ∨
    (∃ k, decodeWord tw = .ok .trim ∧ k % 2 = 0 ∧ k ≤ s.acc.length ∧ t.acc = s.acc.drop k) ∨
    (decodeWord tw = .ok .clear ∧ t.acc = [])

/-! ## The synchronizer's functions -/

/-- R66, whole: a match, by words and by bytes. -/
def Obligations.MatchIsTheMarkerWindow : Prop :=
  ∀ (s : Memory) (p : Nat),
    (matchAt s p = true ↔ p % 2 = 0 ∧ p + 6 ≤ s.length ∧
      Memory.readWord s p = some 157 ∧ Memory.readWord s (p + 2) = some 58 ∧ Memory.readWord s (p + 4) = some 71) ∧
    (matchAt s p = true ↔ p % 2 = 0 ∧ p + 6 ≤ s.length ∧
      (s.drop p).take 6 = [0x9D, 0x00, 0x3A, 0x00, 0x47, 0x00])

/-- R67: `find_marker` is the least match, or `none` when there is none. -/
def Obligations.FindMarkerIsTheLeastMatch : Prop :=
  ∀ s : Memory,
    (∀ p, findMarker s = some p ↔ matchAt s p = true ∧ ∀ q < p, matchAt s q = false) ∧
    (findMarker s = none ↔ ∀ p, matchAt s p = false) ∧
    (s.length < 6 → findMarker s = none)

/-- R68, whole: the frame at the first match, or "no frame yet"; the prefix is dropped with the frame; no later match is tried. -/
def Obligations.ExtractionIsOfTheFirstMatch : Prop :=
  ∀ s : Memory,
    (findMarker s = none → tryExtractFrame s = none) ∧
    (∀ p, findMarker s = some p → p + 7388 ≤ s.length →
      ∃ f r, tryExtractFrame s = some (f, r) ∧ f.length = 7388 ∧ s = s.take p ++ f ++ r) ∧
    (∀ p, findMarker s = some p → s.length < p + 7388 →
      tryExtractFrame s = none ∧ ∀ q, matchAt s q = true → s.length < q + 7388)

/-- R72: the value of the trim point. -/
def Obligations.TrimPointValue : Prop :=
  ∀ s : Memory,
    (∀ p, findMarker s = some p → trimPoint s = p) ∧
    (findMarker s = none → s.length ≤ 5 → trimPoint s = 0) ∧
    (findMarker s = none → 6 ≤ s.length →
      (s.length % 2 = 0 → trimPoint s = s.length - 4) ∧ (s.length % 2 = 1 → trimPoint s = s.length - 5) ∧
      ∀ k, k % 2 = 0 → s.length - 5 ≤ k → trimPoint s ≤ k) ∧
    trimPoint s % 2 = 0 ∧ trimPoint s ≤ s.length

/-- R74: repeated extraction, unfolded once. -/
def Obligations.FramesUnfold : Prop :=
  ∀ s : Memory,
    (tryExtractFrame s = none → frames s = [] ∧ rest s = s) ∧
    (∀ f r, tryExtractFrame s = some (f, r) → frames s = f :: frames r ∧ rest s = rest r ∧ r.length + 7388 ≤ s.length)

/-- R75: appending bytes never moves a first match, and adds one only where there was none, at an even offset whose window was
not inside. -/
def Obligations.FirstMatchIsStable : Prop :=
  ∀ s t : Memory,
    (∀ p, findMarker s = some p → findMarker (s ++ t) = some p) ∧
    (∀ q, findMarker s = none → findMarker (s ++ t) = some q → q % 2 = 0 ∧ s.length < q + 6)

/-- R77: trimming changes no extraction, now or after more bytes. (The rule's last sentence, on the final remainder, is not
claimed: log 13, DEDUCED.) -/
def Obligations.TrimIsTransparent : Prop :=
  ∀ s t : Memory,
    tryExtractFrame (s.drop (trimPoint s) ++ t) = tryExtractFrame (s ++ t) ∧
    frames (s.drop (trimPoint s) ++ t) = frames (s ++ t)

/-- R78: an incomplete frame leaves the accumulator as it was. -/
def Obligations.IncompleteFrameIsKept : Prop :=
  ∀ (s t : State) (p : Nat), findMarker s.acc = some p → s.acc.length < p + 7388 → exec .extract s = .next t →
    (t.rsp = some .none ∨ t.rsp = some .busy) ∧ t.acc = s.acc

/-- R76, its instance for one frame in garbage: the garbage of even length with no match in it, the marker and payload of one
frame, any trailing bytes. -/
def Obligations.FrameInGarbageIsFound : Prop :=
  ∀ garbage payload trailing : List Byte, garbage.length % 2 = 0 → (∀ p, matchAt garbage p = false) →
    payload.length = 7382 →
    tryExtractFrame (garbage ++ markerBytes ++ payload ++ trailing) = some (markerBytes ++ payload, trailing)

/-- R76: chunk-size independence. In a session, however the bytes are pushed and whatever else is sent among them, the frames
extracted are a prefix of the frames of the accepted bytes; all of them once no frame is left; and without `TRIM` what stays is
what the extraction loop leaves. -/
def Obligations.ChunkSizeIndependence : Prop :=
  ∀ (s : State) (ws : List TWord), s.acc = [] → (∀ w ∈ ws, isOp .clear w = false) →
    extractedFrames s ws <+: frames (acceptedBytes s ws) ∧
    (tryExtractFrame (runWords s ws).acc = none →
      extractedFrames s ws = frames (acceptedBytes s ws) ∧
      ((∀ w ∈ ws, isOp .trim w = false) → (runWords s ws).acc = rest (acceptedBytes s ws)))

/-- R79: in a session every accepted byte lies in one place: a discarded gap of even length, one extracted frame, or the
accumulator, with the frames in the order of the stream. -/
def Obligations.EveryByteInOnePlace : Prop :=
  ∀ (s : State) (ws : List TWord), s.acc = [] → (∀ w ∈ ws, isOp .clear w = false) →
    ∃ gaps : List (List Byte), gaps.length = (extractedFrames s ws).length ∧ (∀ g ∈ gaps, g.length % 2 = 0) ∧
      ∃ last : List Byte, last.length % 2 = 0 ∧
        acceptedBytes s ws = (List.zipWith (· ++ ·) gaps (extractedFrames s ws)).flatten ++ last ++ (runWords s ws).acc

/-- R144: a session whose accepted bytes hold no marker at an even position gives no frame, however long it is. -/
def Obligations.MisalignedSessionGivesNothing : Prop :=
  ∀ (s : State) (ws : List TWord), s.acc = [] → (∀ w ∈ ws, isOp .clear w = false) →
    (∀ p, matchAt (acceptedBytes s ws) p = false) → extractedFrames s ws = []

/-! ## The decoder's function -/

/-- R86: `decode`, sample by sample, and no value on a wrong length. -/
def Obligations.DecodeIsLittleEndian : Prop :=
  ∀ fb : List Byte,
    (fb.length = 7388 → ∃ raw, decodeFrame fb = .ok raw ∧ raw.length = 3694 ∧
      ∀ i < 3694, ∃ lo hi x, fb[2 * i]? = some lo ∧ fb[2 * i + 1]? = some hi ∧ raw[i]? = some x ∧
        x.toNat = lo.toNat + 256 * hi.toNat) ∧
    (fb.length ≠ 7388 → decodeFrame fb = .error .precondDecode)

/-- R87: `decode` is a bijection between 7388-byte sequences and RawFrames, with the inverse the rule gives. -/
def Obligations.DecodeIsABijection : Prop :=
  (∀ (fb : List Byte) (raw : List Sample), decodeFrame fb = .ok raw ↔ raw.length = 3694 ∧ fb = bytesOf raw) ∧
  (∀ (raw : List Sample) (i : Nat) (x : Sample), raw[i]? = some x →
    (bytesOf raw)[2 * i]? = some (BitVec.ofNat 8 (x.toNat % 256)) ∧
    (bytesOf raw)[2 * i + 1]? = some (BitVec.ofNat 8 (x.toNat / 256)) ∧
    (bytesOf raw)[2 * i]? = some (x.extractLsb' 0 8) ∧ (bytesOf raw)[2 * i + 1]? = some (x.extractLsb' 8 8))

/-- R90: the document's example. -/
def Obligations.DecodeOfTheKnownPattern : Prop :=
  decodeFrame (List.replicate 3694 [0x00, 0x01]).flatten = .ok (List.replicate 3694 256)

/-! ## The corrector's function -/

/-- R98, R100: the dark level and the balance offset of a frame are exact, and the offset does not depend on the dark level. -/
def Obligations.OffsetsAreExact : Prop :=
  ∀ raw : List Sample, raw.length = 3694 →
    let f := sampleInt raw
    dark4 raw = 2 * (f 10 + f 11) ∧ 0 ≤ dark4 raw ∧ dark4 raw ≤ 262140 ∧ dark4 raw % 2 = 0 ∧
    4 * offset4 (inverted4 raw) = sumAt (inverted4 raw) [18, 20, 22, 24] - sumAt (inverted4 raw) [19, 21, 23, 25] ∧
    offset4 (inverted4 raw) = (f 19 + f 21 + f 23 + f 25) - (f 18 + f 20 + f 22 + f 24) ∧
    -262140 ≤ offset4 (inverted4 raw) ∧ offset4 (inverted4 raw) ≤ 262140

/-- R102: the closed form of every corrected value, in every mode, and the equal means after balance. -/
def Obligations.CorrectClosedForm : Prop :=
  ∀ raw : List Sample, raw.length = 3694 →
    let f := sampleInt raw
    let a := f 10 + f 11
    let d := (f 19 + f 21 + f 23 + f 25) - (f 18 + f 20 + f 22 + f 24)
    (∀ b, ∃ cor, correctFrame raw false b = .ok cor ∧
      ∀ j < 3694, ∃ c, cor[j]? = some c ∧ c.toInt = 4 * f j) ∧
    (∃ cor, correctFrame raw true false = .ok cor ∧
      ∀ j < 3694, ∃ c, cor[j]? = some c ∧ c.toInt = 2 * a - 4 * f j) ∧
    (∃ cor, correctFrame raw true true = .ok cor ∧
      (∀ j < 3694, ∃ c, cor[j]? = some c ∧ c.toInt = if j % 2 = 1 then 2 * a - 4 * f j else 2 * a - 4 * f j - d) ∧
      sumAt (cor.map BitVec.toInt) [18, 20, 22, 24] = sumAt (cor.map BitVec.toInt) [19, 21, 23, 25])

/-- R103: every corrected value is in the range of `s20`, so the narrowing loses nothing; the dark level, the offset and the
values before balance are in their ranges. -/
def Obligations.CorrectedValuesFit : Prop :=
  ∀ (raw : List Sample) (i b : Bool), raw.length = 3694 →
    (0 ≤ dark4 raw ∧ dark4 raw ≤ 262140 ∧ -262140 ≤ offset4 (inverted4 raw) ∧ offset4 (inverted4 raw) ≤ 262140) ∧
    ∃ cor, correctFrame raw i b = .ok cor ∧ cor.map BitVec.toInt = quarters raw i b ∧
      (∀ c ∈ cor, -524280 ≤ c.toInt ∧ c.toInt ≤ 524280) ∧
      (i = false → ∀ c ∈ cor, 0 ≤ c.toInt ∧ c.toInt ≤ 262140) ∧
      (b = false → ∀ c ∈ cor, -262140 ≤ c.toInt ∧ c.toInt ≤ 262140)

/-- R106: balance changes even indices only, all by the one offset; with invert off every sample passes unchanged. -/
def Obligations.BalanceTouchesEvenIndicesOnly : Prop :=
  ∀ raw : List Sample, raw.length = 3694 →
    ∃ plain dark balanced, correctFrame raw false true = .ok plain ∧ correctFrame raw true false = .ok dark ∧
      correctFrame raw true true = .ok balanced ∧
      ∀ j < 3694, ∃ x p c d, raw[j]? = some x ∧ plain[j]? = some p ∧ dark[j]? = some c ∧ balanced[j]? = some d ∧
        p.toInt = 4 * (x.toNat : Int) ∧ (j % 2 = 1 → d = c) ∧
        (j % 2 = 0 → d.toInt = c.toInt - offset4 (inverted4 raw))

/-- R106, R99: the document's dark-subtraction example, for every frame of that form. -/
def Obligations.DarkSubtractionExample : Prop :=
  ∀ raw : List Sample, raw.length = 3694 →
    (∀ j < 3694, raw[j]? = some (if j = 10 then 100 else if j = 11 then 200 else 50)) →
    ∃ cor, correctFrame raw true false = .ok cor ∧
      ∀ j < 3694, ∃ c, cor[j]? = some c ∧ c.toInt = if j = 10 then 200 else if j = 11 then -200 else 400

/-- R89, R108: a wrong length gives no value. -/
def Obligations.WrongLengthsGiveNoValue : Prop :=
  (∀ fb raw, fb.length ≠ 7388 → decodeFrame fb ≠ .ok raw) ∧
  (∀ raw i b cor, raw.length ≠ 3694 → correctFrame raw i b ≠ .ok cor)

/-! ## The whole block -/

/-- R23: the invariants are kept by every step from every state that has them. -/
def Obligations.InvariantsAreKept : Prop :=
  ∀ s t : State, BlockInv s → step s = .next t → BlockInv t

/-- R23: the state after reset has the invariants. -/
def Obligations.InvariantsHoldAtReset : Prop := BlockInv State.reset

/-- R57: one `FRAME` on empty stage registers: a frame goes from `ACC` to `OUTQ` with four `OK`, or `NONE` and three `EMPTY`. -/
def Obligations.FrameMovesOneFrame : Prop :=
  ∀ s : State, s.stagesEmpty →
    (tryExtractFrame s.acc = none →
      responses s frameOps = [some .none, some .empty, some .empty, some .empty] ∧
      runWords s frameOps = { s with rsp := some .empty }) ∧
    (∀ f r, tryExtractFrame s.acc = some (f, r) →
      responses s frameOps = [some .ok, some .ok, some .ok, some .ok] ∧
      ∃ e, eventOf f s.cfg = some e ∧ runWords s frameOps = { s with acc := r, outq := s.outq ++ [e], rsp := some .ok })

/-- R57: `DRAIN` ends, with every frame of the accumulator emitted in order under the present modes. How many turns `drain` allows
and that it completes the `FRAME` that sees `NONE` are the model's (log 12, DEDUCED). -/
def Obligations.DrainEmitsEveryFrame : Prop :=
  ∀ s : State, s.stagesEmpty →
    (drain s).complete ∧ (drain s).acc = rest s.acc ∧ (drain s).cfg = s.cfg ∧ (drain s).err = s.err ∧
    (drain s).outq.map some = s.outq.map some ++ (frames s.acc).map fun f => eventOf f s.cfg

/-- R147: the chain that holds when no frame is emitted: with the three registers occupied the three operations that fill them
answer `BUSY` and nothing is lost. -/
def Obligations.BackpressureLosesNothing : Prop :=
  ∀ s : State, s.frmFull = true → s.rawFull = true → s.outFull = true →
    responses s ([Instr.extract, .decode, .correct].map encode) = [some .busy, some .busy, some .busy] ∧
    runWords s ([Instr.extract, .decode, .correct].map encode) = { s with rsp := some .busy }

/-- R148: from every state that meets the invariants, five operations make room for a byte. -/
def Obligations.NoDeadlock : Prop :=
  ∀ (s : State) (b : Byte), BlockInv s →
    (runWords s ([Instr.emit, .correct, .decode, .trim, .extract, .push b].map encode)).rsp = some .ok

/-- R118: the end-to-end law. In a session, `OUTQ` and then `OUT` hold the events of the frames of the accepted bytes, in order,
each under the modes that `CFG` had at its own `CORRECT`; when the run is complete, of all frames, and nothing else. -/
def Obligations.EndToEndLaw : Prop :=
  ∀ (s : State) (ws : List TWord), s.sessionStart → (∀ w ∈ ws, isOp .clear w = false) →
    ((runWords s ws).outq ++ (runWords s ws).out.toList).map some =
      s.outq.map some ++ List.zipWith eventOf (frames (acceptedBytes s ws)) (correctModes s ws) ∧
    (correctModes s ws).length ≤ (frames (acceptedBytes s ws)).length ∧
    ((runWords s ws).complete → (correctModes s ws).length = (frames (acceptedBytes s ws)).length)

/-- R118: with `CFG` constant, what a complete session emits depends on the accepted bytes alone, not on the schedule. -/
def Obligations.ScheduleDoesNotMatter : Prop :=
  ∀ (s : State) (ws vs : List TWord), s.sessionStart →
    (∀ w ∈ ws, isOp .clear w = false ∧ isOp .setcfg w = false) →
    (∀ w ∈ vs, isOp .clear w = false ∧ isOp .setcfg w = false) →
    acceptedBytes s ws = acceptedBytes s vs → (runWords s ws).complete → (runWords s vs).complete →
    (runWords s ws).outq = (runWords s vs).outq
end

