-- ==== Sys2Proof/Laws/Config.lean ====
section
/-! SUPPORT. The values of the named constants, and the two shapes a capacity has. -/

namespace Sys2Proof.Config

@[simp] theorem frameWords_eq : frameWords = 3694 := (rfl)
@[simp] theorem frameSize_eq : frameSize = 7388 := (rfl)
@[simp] theorem markerWords_eq : markerWords = [157, 58, 71] := (rfl)
@[simp] theorem markerBytesLen_eq : markerBytesLen = 6 := (rfl)
@[simp] theorem darkIdxA_eq : darkIdxA = 10 := (rfl)
@[simp] theorem darkIdxB_eq : darkIdxB = 11 := (rfl)
@[simp] theorem balEvenIdx_eq : balEvenIdx = [18, 20, 22, 24] := (rfl)
@[simp] theorem balOddIdx_eq : balOddIdx = [19, 21, 23, 25] := (rfl)
@[simp] theorem balCount_eq : balCount = 1847 := (rfl)
@[simp] theorem scanStep_eq : scanStep = 2 := (rfl)

/-- R4: a finite capacity is at least `FRAME_SIZE`. -/
theorem frameSize_le_accCap {c : Nat} (h : accCap = some c) : frameSize ≤ c := by
  obtain ⟨n, -, rfl⟩ := Option.map_eq_some_iff.mp h
  exact Nat.le_add_right _ _

end Sys2Proof.Config
end

