-- ==== Sys2Proof/Laws/Memory.lean ====
section
/-! SUPPORT. The accumulator as memory: what a read gives after each operation, the little-endian word, the capacity, and that
every memory operation keeps the memory's form. -/

namespace Sys2Proof.Machine

/-! ## Words -/

/-- R31, R87: the word of two bytes is exact, with no overflow. -/
@[simp] theorem wordOf_toNat (lo hi : Byte) : (wordOf lo hi).toNat = lo.toNat + 256 * hi.toNat := by
  have hlo := lo.isLt
  have hhi := hi.isLt
  simp [wordOf]
  omega

theorem Memory.readWord_eq_some_iff (m : Memory) (a : Nat) (w : Sample) :
    m.readWord a = some w ↔ ∃ lo hi, m[a]? = some lo ∧ m[a + 1]? = some hi ∧ wordOf lo hi = w := by
  unfold Memory.readWord Memory.read
  split
  · simp_all
  · rename_i h
    constructor
    · simp
    · rintro ⟨lo, hi, h1, h2, -⟩
      exact absurd h2 (h lo hi h1)

/-! ## Reads after operations -/

theorem Memory.read_append_same (m : Memory) (b : Byte) : (m.append b).read m.length = some b := by
  simp [Memory.append, Memory.read]

theorem Memory.read_append_of_ne (m : Memory) (b : Byte) {a : Nat} (h : a ≠ m.length) :
    (m.append b).read a = m.read a := by
  unfold Memory.append Memory.read
  rcases Nat.lt_or_ge a m.length with h' | h'
  · exact List.getElem?_append_left h'
  · have h2 : m.length + 1 ≤ a := by omega
    rw [List.getElem?_eq_none (by simpa using h2), List.getElem?_eq_none h']

theorem Memory.read_dropFront (m : Memory) (k a : Nat) : (m.dropFront k).read a = m.read (k + a) := by
  simp [Memory.dropFront, Memory.read]

@[simp] theorem Memory.length_append (m : Memory) (b : Byte) : (m.append b).length = m.length + 1 := by
  simp [Memory.append]

@[simp] theorem Memory.length_dropFront (m : Memory) (k : Nat) : (m.dropFront k).length = m.length - k := by
  simp [Memory.dropFront]

/-- The cells of a memory are its offsets in order. -/
theorem Memory.cells_keys (m : Memory) : m.cells.map Prod.fst = List.range m.length := by
  apply List.ext_getElem <;> simp [Memory.cells]

/-- The cells' addresses are strictly rising. -/
theorem Memory.cells_sorted (m : Memory) : (m.cells.map Prod.fst).Pairwise (· < ·) := by
  rw [Memory.cells_keys]; exact List.pairwise_lt_range

/-- The cells hold what the reads give, and nothing else. -/
theorem Memory.mem_cells_iff (m : Memory) (a : Nat) (b : Byte) : (a, b) ∈ m.cells ↔ m.read a = some b := by
  simp [Memory.cells, Memory.read, List.mem_iff_getElem?, List.getElem?_mapIdx]

/-! ## The capacity -/

/-- R38, R69: the test of `PUSH` is `len(ACC) = ACC_CAP`. -/
theorem atCapacity_iff (n : Nat) : atCapacity n = true ↔ Config.accCap = some n := by
  unfold atCapacity Config.accCap
  cases h : Config.accSlack with
  | none => simp
  | some k => simp; omega

/-- Below one frame there is room, whatever the capacity. -/
theorem atCapacity_of_lt {n : Nat} (h : n < Config.frameSize) : atCapacity n = false := by
  simp at h
  simp [atCapacity]
  omega

/-! ## The form is kept -/

theorem Memory.wf_nil : Memory.wf [] := by
  intro c _; exact Nat.zero_le c

theorem Memory.wf_dropFront {m : Memory} (h : Memory.wf m) (k : Nat) : Memory.wf (m.dropFront k) := by
  intro c hc
  have := h c hc
  simp; omega

theorem Memory.wf_append {m : Memory} (h : Memory.wf m) (hroom : atCapacity m.length = false) (b : Byte) :
    Memory.wf (m.append b) := by
  intro c hc
  have h1 := h c hc
  have h2 : Config.accCap ≠ some m.length := fun e => by
    rw [← atCapacity_iff] at e; simp [e] at hroom
  have h3 : c ≠ m.length := fun e => h2 (by rw [← e]; exact hc)
  simp; omega

end Sys2Proof.Machine
end

