-- ==== Sys2Proof/Laws/State.lean ====
section
/-! SUPPORT. One lemma per field per update, each true by computation. -/

namespace Sys2Proof.Machine

variable (s : State)

@[simp] theorem State.setAcc_acc (m : Memory) : (s.setAcc m).acc = m := rfl
@[simp] theorem State.setAcc_frm (m : Memory) : (s.setAcc m).frm = s.frm := rfl
@[simp] theorem State.setAcc_raw (m : Memory) : (s.setAcc m).raw = s.raw := rfl
@[simp] theorem State.setAcc_out (m : Memory) : (s.setAcc m).out = s.out := rfl
@[simp] theorem State.setAcc_cfg (m : Memory) : (s.setAcc m).cfg = s.cfg := rfl
@[simp] theorem State.setAcc_err (m : Memory) : (s.setAcc m).err = s.err := rfl
@[simp] theorem State.setAcc_outq (m : Memory) : (s.setAcc m).outq = s.outq := rfl
@[simp] theorem State.setAcc_rsp (m : Memory) : (s.setAcc m).rsp = s.rsp := rfl
@[simp] theorem State.setAcc_port (m : Memory) : (s.setAcc m).port = s.port := rfl

@[simp] theorem State.setFrm_acc (f : Option (List Byte)) : (s.setFrm f).acc = s.acc := rfl
@[simp] theorem State.setFrm_frm (f : Option (List Byte)) : (s.setFrm f).frm = f := rfl
@[simp] theorem State.setFrm_raw (f : Option (List Byte)) : (s.setFrm f).raw = s.raw := rfl
@[simp] theorem State.setFrm_out (f : Option (List Byte)) : (s.setFrm f).out = s.out := rfl
@[simp] theorem State.setFrm_cfg (f : Option (List Byte)) : (s.setFrm f).cfg = s.cfg := rfl
@[simp] theorem State.setFrm_err (f : Option (List Byte)) : (s.setFrm f).err = s.err := rfl
@[simp] theorem State.setFrm_outq (f : Option (List Byte)) : (s.setFrm f).outq = s.outq := rfl
@[simp] theorem State.setFrm_rsp (f : Option (List Byte)) : (s.setFrm f).rsp = s.rsp := rfl
@[simp] theorem State.setFrm_port (f : Option (List Byte)) : (s.setFrm f).port = s.port := rfl

@[simp] theorem State.setRaw_acc (r : Option (List Sample)) : (s.setRaw r).acc = s.acc := rfl
@[simp] theorem State.setRaw_frm (r : Option (List Sample)) : (s.setRaw r).frm = s.frm := rfl
@[simp] theorem State.setRaw_raw (r : Option (List Sample)) : (s.setRaw r).raw = r := rfl
@[simp] theorem State.setRaw_out (r : Option (List Sample)) : (s.setRaw r).out = s.out := rfl
@[simp] theorem State.setRaw_cfg (r : Option (List Sample)) : (s.setRaw r).cfg = s.cfg := rfl
@[simp] theorem State.setRaw_err (r : Option (List Sample)) : (s.setRaw r).err = s.err := rfl
@[simp] theorem State.setRaw_outq (r : Option (List Sample)) : (s.setRaw r).outq = s.outq := rfl
@[simp] theorem State.setRaw_rsp (r : Option (List Sample)) : (s.setRaw r).rsp = s.rsp := rfl
@[simp] theorem State.setRaw_port (r : Option (List Sample)) : (s.setRaw r).port = s.port := rfl

@[simp] theorem State.setOut_acc (e : Option Event) : (s.setOut e).acc = s.acc := rfl
@[simp] theorem State.setOut_frm (e : Option Event) : (s.setOut e).frm = s.frm := rfl
@[simp] theorem State.setOut_raw (e : Option Event) : (s.setOut e).raw = s.raw := rfl
@[simp] theorem State.setOut_out (e : Option Event) : (s.setOut e).out = e := rfl
@[simp] theorem State.setOut_cfg (e : Option Event) : (s.setOut e).cfg = s.cfg := rfl
@[simp] theorem State.setOut_err (e : Option Event) : (s.setOut e).err = s.err := rfl
@[simp] theorem State.setOut_outq (e : Option Event) : (s.setOut e).outq = s.outq := rfl
@[simp] theorem State.setOut_rsp (e : Option Event) : (s.setOut e).rsp = s.rsp := rfl
@[simp] theorem State.setOut_port (e : Option Event) : (s.setOut e).port = s.port := rfl

@[simp] theorem State.setCfg_acc (c : BitVec 2) : (s.setCfg c).acc = s.acc := rfl
@[simp] theorem State.setCfg_frm (c : BitVec 2) : (s.setCfg c).frm = s.frm := rfl
@[simp] theorem State.setCfg_raw (c : BitVec 2) : (s.setCfg c).raw = s.raw := rfl
@[simp] theorem State.setCfg_out (c : BitVec 2) : (s.setCfg c).out = s.out := rfl
@[simp] theorem State.setCfg_cfg (c : BitVec 2) : (s.setCfg c).cfg = c := rfl
@[simp] theorem State.setCfg_err (c : BitVec 2) : (s.setCfg c).err = s.err := rfl
@[simp] theorem State.setCfg_outq (c : BitVec 2) : (s.setCfg c).outq = s.outq := rfl
@[simp] theorem State.setCfg_rsp (c : BitVec 2) : (s.setCfg c).rsp = s.rsp := rfl
@[simp] theorem State.setCfg_port (c : BitVec 2) : (s.setCfg c).port = s.port := rfl

@[simp] theorem State.setErr_acc (e : BitVec 3) : (s.setErr e).acc = s.acc := rfl
@[simp] theorem State.setErr_frm (e : BitVec 3) : (s.setErr e).frm = s.frm := rfl
@[simp] theorem State.setErr_raw (e : BitVec 3) : (s.setErr e).raw = s.raw := rfl
@[simp] theorem State.setErr_out (e : BitVec 3) : (s.setErr e).out = s.out := rfl
@[simp] theorem State.setErr_cfg (e : BitVec 3) : (s.setErr e).cfg = s.cfg := rfl
@[simp] theorem State.setErr_err (e : BitVec 3) : (s.setErr e).err = e := rfl
@[simp] theorem State.setErr_outq (e : BitVec 3) : (s.setErr e).outq = s.outq := rfl
@[simp] theorem State.setErr_rsp (e : BitVec 3) : (s.setErr e).rsp = s.rsp := rfl
@[simp] theorem State.setErr_port (e : BitVec 3) : (s.setErr e).port = s.port := rfl

@[simp] theorem State.setPort_acc (p : List PortEvent) : (s.setPort p).acc = s.acc := rfl
@[simp] theorem State.setPort_frm (p : List PortEvent) : (s.setPort p).frm = s.frm := rfl
@[simp] theorem State.setPort_raw (p : List PortEvent) : (s.setPort p).raw = s.raw := rfl
@[simp] theorem State.setPort_out (p : List PortEvent) : (s.setPort p).out = s.out := rfl
@[simp] theorem State.setPort_cfg (p : List PortEvent) : (s.setPort p).cfg = s.cfg := rfl
@[simp] theorem State.setPort_err (p : List PortEvent) : (s.setPort p).err = s.err := rfl
@[simp] theorem State.setPort_outq (p : List PortEvent) : (s.setPort p).outq = s.outq := rfl
@[simp] theorem State.setPort_rsp (p : List PortEvent) : (s.setPort p).rsp = s.rsp := rfl
@[simp] theorem State.setPort_port (p : List PortEvent) : (s.setPort p).port = p := rfl

@[simp] theorem State.handOver_acc (e : Event) : (s.handOver e).acc = s.acc := rfl
@[simp] theorem State.handOver_frm (e : Event) : (s.handOver e).frm = s.frm := rfl
@[simp] theorem State.handOver_raw (e : Event) : (s.handOver e).raw = s.raw := rfl
@[simp] theorem State.handOver_out (e : Event) : (s.handOver e).out = s.out := rfl
@[simp] theorem State.handOver_cfg (e : Event) : (s.handOver e).cfg = s.cfg := rfl
@[simp] theorem State.handOver_err (e : Event) : (s.handOver e).err = s.err := rfl
@[simp] theorem State.handOver_outq (e : Event) : (s.handOver e).outq = s.outq ++ [e] := rfl
@[simp] theorem State.handOver_rsp (e : Event) : (s.handOver e).rsp = s.rsp := rfl
@[simp] theorem State.handOver_port (e : Event) : (s.handOver e).port = s.port := rfl

@[simp] theorem State.respond_acc (r : Resp) : (s.respond r).acc = s.acc := rfl
@[simp] theorem State.respond_frm (r : Resp) : (s.respond r).frm = s.frm := rfl
@[simp] theorem State.respond_raw (r : Resp) : (s.respond r).raw = s.raw := rfl
@[simp] theorem State.respond_out (r : Resp) : (s.respond r).out = s.out := rfl
@[simp] theorem State.respond_cfg (r : Resp) : (s.respond r).cfg = s.cfg := rfl
@[simp] theorem State.respond_err (r : Resp) : (s.respond r).err = s.err := rfl
@[simp] theorem State.respond_outq (r : Resp) : (s.respond r).outq = s.outq := rfl
@[simp] theorem State.respond_rsp (r : Resp) : (s.respond r).rsp = some r := rfl
@[simp] theorem State.respond_port (r : Resp) : (s.respond r).port = s.port := rfl

@[simp] theorem State.applyReset_acc : s.applyReset.acc = [] := rfl
@[simp] theorem State.applyReset_frm : s.applyReset.frm = none := rfl
@[simp] theorem State.applyReset_raw : s.applyReset.raw = none := rfl
@[simp] theorem State.applyReset_out : s.applyReset.out = none := rfl
@[simp] theorem State.applyReset_cfg : s.applyReset.cfg = 0 := rfl
@[simp] theorem State.applyReset_err : s.applyReset.err = 0 := rfl
@[simp] theorem State.applyReset_outq : s.applyReset.outq = [] := rfl
@[simp] theorem State.applyReset_rsp : s.applyReset.rsp = none := rfl
@[simp] theorem State.applyReset_port : s.applyReset.port = s.port := rfl

/-- The sticky record touches no field but `ERR` (R17). -/
theorem State.recordError_eq (e : ErrCode) :
    s.recordError e = s.setErr (if s.err = 0 then e.code else s.err) := by
  unfold recordError
  split <;> rfl

@[simp] theorem State.recordError_acc (e : ErrCode) : (s.recordError e).acc = s.acc := by
  rw [recordError_eq]; rfl
@[simp] theorem State.recordError_frm (e : ErrCode) : (s.recordError e).frm = s.frm := by
  rw [recordError_eq]; rfl
@[simp] theorem State.recordError_raw (e : ErrCode) : (s.recordError e).raw = s.raw := by
  rw [recordError_eq]; rfl
@[simp] theorem State.recordError_out (e : ErrCode) : (s.recordError e).out = s.out := by
  rw [recordError_eq]; rfl
@[simp] theorem State.recordError_cfg (e : ErrCode) : (s.recordError e).cfg = s.cfg := by
  rw [recordError_eq]; rfl
@[simp] theorem State.recordError_err (e : ErrCode) :
    (s.recordError e).err = if s.err = 0 then e.code else s.err := by
  rw [recordError_eq]; rfl
@[simp] theorem State.recordError_outq (e : ErrCode) : (s.recordError e).outq = s.outq := by
  rw [recordError_eq]; rfl
@[simp] theorem State.recordError_rsp (e : ErrCode) : (s.recordError e).rsp = s.rsp := by
  rw [recordError_eq]; rfl
@[simp] theorem State.recordError_port (e : ErrCode) : (s.recordError e).port = s.port := by
  rw [recordError_eq]; rfl

@[simp] theorem State.raiseError_acc (e : ErrCode) (r : Resp) :
    (s.raiseError e r).acc = s.acc := by
  simp [raiseError]
@[simp] theorem State.raiseError_frm (e : ErrCode) (r : Resp) :
    (s.raiseError e r).frm = s.frm := by
  simp [raiseError]
@[simp] theorem State.raiseError_raw (e : ErrCode) (r : Resp) :
    (s.raiseError e r).raw = s.raw := by
  simp [raiseError]
@[simp] theorem State.raiseError_out (e : ErrCode) (r : Resp) :
    (s.raiseError e r).out = s.out := by
  simp [raiseError]
@[simp] theorem State.raiseError_cfg (e : ErrCode) (r : Resp) :
    (s.raiseError e r).cfg = s.cfg := by
  simp [raiseError]
@[simp] theorem State.raiseError_err (e : ErrCode) (r : Resp) :
    (s.raiseError e r).err = if s.err = 0 then e.code else s.err := by
  simp [raiseError]
@[simp] theorem State.raiseError_outq (e : ErrCode) (r : Resp) :
    (s.raiseError e r).outq = s.outq := by
  simp [raiseError]
@[simp] theorem State.raiseError_rsp (e : ErrCode) (r : Resp) :
    (s.raiseError e r).rsp = some r := by
  simp [raiseError]
@[simp] theorem State.raiseError_port (e : ErrCode) (r : Resp) :
    (s.raiseError e r).port = s.port := by
  simp [raiseError]

end Sys2Proof.Machine
end

