-- ==== Sys2Proof/Laws/Ops.lean ====
section
/-! SUPPORT. What a stage of the data path can do, said once. -/

namespace Sys2Proof.Machine

variable {α β γ : Type}

@[simp] theorem State.stage_source_empty (s : State) (d : Option β) (f : α → Except ErrCode γ) (commit : γ → State) :
    s.stage none d f commit = s.respond .empty := rfl

@[simp] theorem State.stage_destination_full (s : State) (a : α) (b : β) (f : α → Except ErrCode γ) (commit : γ → State) :
    s.stage (some a) (some b) f commit = s.respond .busy := rfl

theorem State.stage_error (s : State) (a : α) (f : α → Except ErrCode γ) (commit : γ → State) {e : ErrCode}
    (h : f a = .error e) : s.stage (some a) (none : Option β) f commit = s.raiseError e .precond := by
  simp [State.stage, h]

theorem State.stage_ok (s : State) (a : α) (f : α → Except ErrCode γ) (commit : γ → State) {c : γ}
    (h : f a = .ok c) : s.stage (some a) (none : Option β) f commit = (commit c).respond .ok := by
  simp [State.stage, h]

/-- R130: the four answers of a stage, in their order. -/
theorem State.stage_cases (s : State) (source : Option α) (destination : Option β) (f : α → Except ErrCode γ)
    (commit : γ → State) :
    (source = none ∧ s.stage source destination f commit = s.respond .empty) ∨
    (∃ a b, source = some a ∧ destination = some b ∧ s.stage source destination f commit = s.respond .busy) ∨
    (∃ a e, source = some a ∧ destination = none ∧ f a = .error e ∧
      s.stage source destination f commit = s.raiseError e .precond) ∨
    (∃ a c, source = some a ∧ destination = none ∧ f a = .ok c ∧
      s.stage source destination f commit = (commit c).respond .ok) := by
  cases source with
  | none => exact .inl ⟨rfl, rfl⟩
  | some a =>
    cases destination with
    | some b => exact .inr (.inl ⟨a, b, rfl, rfl, rfl⟩)
    | none =>
      cases h : f a with
      | error e => exact .inr (.inr (.inl ⟨a, e, rfl, rfl, h, State.stage_error s a f commit h⟩))
      | ok c => exact .inr (.inr (.inr ⟨a, c, rfl, rfl, h, State.stage_ok s a f commit h⟩))

end Sys2Proof.Machine
end

