-- ==== Sys2Proof/Laws/Corrector.lean ====
section
/-! SUPPORT. What the signal corrector's functions give, value by value. -/

namespace Sys2Proof.Machine

@[simp] theorem invertBy_length (d : Int) (raw : List Sample) : (invertBy d raw).length = raw.length := by
  simp [invertBy]

@[simp] theorem inverted4_length (raw : List Sample) : (inverted4 raw).length = raw.length := by
  simp [inverted4]

@[simp] theorem balanceBy_length (o : Int) (c : List Int) : (balanceBy o c).length = c.length := by
  simp [balanceBy]

@[simp] theorem quarters_length (raw : List Sample) (invert balanced : Bool) :
    (quarters raw invert balanced).length = raw.length := by
  cases invert <;> cases balanced <;> simp [quarters, balance4]

theorem invertBy_getElem? (d : Int) (raw : List Sample) (i : Nat) :
    (invertBy d raw)[i]? = raw[i]?.map fun x => d - 4 * (x.toNat : Int) := by
  simp [invertBy]

theorem balanceBy_getElem? (o : Int) (xs : List Int) (j : Nat) :
    (balanceBy o xs)[j]? = xs[j]?.map fun x => if j % 2 = 0 ∧ j / 2 < 1847 then x - o else x := by
  simp [balanceBy]

theorem correctFrame_ok_iff (raw : List Sample) (invert balanced : Bool) (cor : List Corr) :
    correctFrame raw invert balanced = .ok cor ↔
      raw.length = 3694 ∧ (quarters raw invert balanced).map (BitVec.ofInt 20) = cor := by
  unfold correctFrame
  split <;> simp_all

theorem correctFrame_of_length {raw : List Sample} (h : raw.length = 3694) (invert balanced : Bool) :
    correctFrame raw invert balanced = .ok ((quarters raw invert balanced).map (BitVec.ofInt 20)) :=
  (correctFrame_ok_iff raw invert balanced _).mpr ⟨h, rfl⟩

theorem correctFrame_wrong_length {raw : List Sample} (h : raw.length ≠ 3694) (invert balanced : Bool) :
    correctFrame raw invert balanced = .error .precondCorrect := by
  simp [correctFrame, h]

theorem correctFrame_length {raw : List Sample} {invert balanced : Bool} {cor : List Corr}
    (h : correctFrame raw invert balanced = .ok cor) : cor.length = 3694 := by
  obtain ⟨hl, rfl⟩ := (correctFrame_ok_iff raw invert balanced cor).mp h
  simp [hl]

@[simp] theorem cfgInvert_cfgOf (i b : Bool) : cfgInvert (cfgOf i b) = i := by
  revert i b; decide

@[simp] theorem cfgBalanced_cfgOf (i b : Bool) : cfgBalanced (cfgOf i b) = b := by
  revert i b; decide

end Sys2Proof.Machine
end

