-- ==== Sys2Proof/Laws/Decoder.lean ====
section
/-! SUPPORT. What the frame decoder's functions give, sample by sample. -/

namespace Sys2Proof.Machine

@[simp] theorem samplesOf_length : ∀ fb : List Byte, (samplesOf fb).length = fb.length / 2
  | [] => rfl
  | [_] => by simp [samplesOf]
  | _ :: _ :: rest => by simp [samplesOf, samplesOf_length rest]; omega

@[simp] theorem bytesOf_length : ∀ raw : List Sample, (bytesOf raw).length = 2 * raw.length
  | [] => rfl
  | _ :: rest => by simp [bytesOf, bytesOf_length rest]; omega

/-- R86: sample `i` is the word of bytes `2*i` and `2*i + 1`. -/
theorem samplesOf_getElem? : ∀ (fb : List Byte) (i : Nat),
    (samplesOf fb)[i]? = Memory.readWord fb (2 * i)
  | [], i => by simp [samplesOf, Memory.readWord, Memory.read]
  | [b], i => by cases i <;> simp [samplesOf, Memory.readWord, Memory.read]
  | lo :: hi :: rest, 0 => by simp [samplesOf, Memory.readWord, Memory.read]
  | lo :: hi :: rest, i + 1 => by
    have h := samplesOf_getElem? rest i
    have h2 : 2 * (i + 1) = 2 * i + 1 + 1 := by omega
    simp only [samplesOf, List.getElem?_cons_succ, h, Memory.readWord, Memory.read, h2]

theorem decodeFrame_ok_iff (fb : List Byte) (raw : List Sample) :
    decodeFrame fb = .ok raw ↔ fb.length = 7388 ∧ samplesOf fb = raw := by
  unfold decodeFrame
  split <;> simp_all

theorem decodeFrame_of_length {fb : List Byte} (h : fb.length = 7388) : decodeFrame fb = .ok (samplesOf fb) :=
  (decodeFrame_ok_iff fb _).mpr ⟨h, rfl⟩

theorem decodeFrame_wrong_length {fb : List Byte} (h : fb.length ≠ 7388) : decodeFrame fb = .error .precondDecode := by
  simp [decodeFrame, h]

end Sys2Proof.Machine
end

