-- ==== Sys2Proof/Laws/PerInstr.lean ====
section
/-! SUPPORT. Statements about every operation as a word, one lemma per constructor. -/

/-- The word of the operation is one that the decoder reads as that operation (R49 to R52). -/
def Sys2Proof.Laws.WordIsRead.Statement (i : Sys2Proof.Instr) : Prop :=
  Sys2Proof.decodeWord (Sys2Proof.encode i) = .ok i

theorem Sys2Proof.Laws.WordIsRead.push (byte : Sys2Proof.Byte) : Sys2Proof.Laws.WordIsRead.Statement (.push byte) := by
  revert byte; unfold Sys2Proof.Laws.WordIsRead.Statement; decide

theorem Sys2Proof.Laws.WordIsRead.extract : Sys2Proof.Laws.WordIsRead.Statement .extract := by
  unfold Sys2Proof.Laws.WordIsRead.Statement; decide

theorem Sys2Proof.Laws.WordIsRead.trim : Sys2Proof.Laws.WordIsRead.Statement .trim := by
  unfold Sys2Proof.Laws.WordIsRead.Statement; decide

theorem Sys2Proof.Laws.WordIsRead.decode : Sys2Proof.Laws.WordIsRead.Statement .decode := by
  unfold Sys2Proof.Laws.WordIsRead.Statement; decide

theorem Sys2Proof.Laws.WordIsRead.setcfg (invert balanced : Bool) :
    Sys2Proof.Laws.WordIsRead.Statement (.setcfg invert balanced) := by
  revert invert balanced; unfold Sys2Proof.Laws.WordIsRead.Statement; decide

theorem Sys2Proof.Laws.WordIsRead.correct : Sys2Proof.Laws.WordIsRead.Statement .correct := by
  unfold Sys2Proof.Laws.WordIsRead.Statement; decide

theorem Sys2Proof.Laws.WordIsRead.emit : Sys2Proof.Laws.WordIsRead.Statement .emit := by
  unfold Sys2Proof.Laws.WordIsRead.Statement; decide

theorem Sys2Proof.Laws.WordIsRead.clear : Sys2Proof.Laws.WordIsRead.Statement .clear := by
  unfold Sys2Proof.Laws.WordIsRead.Statement; decide
end

