-- ==== Sys2Proof/Laws/Synchronizer.lean ====
section
/-! SUPPORT. What the synchronizer's functions can give, each said once. -/

namespace Sys2Proof.Machine

/-- R66, with the marker's words spelled out. -/
theorem matchAt_iff (s : Memory) (p : Nat) :
    matchAt s p = true ↔ p % 2 = 0 ∧ p + 6 ≤ s.length ∧
      s.readWord p = some 157 ∧ s.readWord (p + 2) = some 58 ∧ s.readWord (p + 4) = some 71 := by
  simp [matchAt, wordsAt, and_assoc]

/-- R67: the scan from an even offset, with enough turns left, ends at the least match at or after it. -/
theorem scanFrom_eq_some_iff (s : Memory) (fuel p q : Nat) (hp : p % 2 = 0) (hf : s.length ≤ p + fuel) :
    scanFrom s fuel p = some q ↔
      matchAt s q = true ∧ p ≤ q ∧ ∀ r, p ≤ r → r < q → matchAt s r = false := by
  induction fuel generalizing p with
  | zero =>
    simp only [scanFrom]
    constructor
    · simp
    · rintro ⟨hm, hpq, -⟩
      have := ((matchAt_iff s q).mp hm).2.1
      omega
  | succ n ih =>
    simp only [scanFrom, Config.markerBytesLen_eq, Config.scanStep_eq]
    split
    · split
      · rename_i hm
        constructor
        · rintro h; cases h
          exact ⟨hm, le_refl _, fun r h1 h2 => by omega⟩
        · rintro ⟨_, hpq, hlt⟩
          rcases Nat.eq_or_lt_of_le hpq with rfl | h
          · rfl
          · have := hlt p (le_refl _) h; simp [hm] at this
      · rename_i hm
        rw [ih (p + 2) (by omega) (by omega)]
        constructor
        · rintro ⟨h1, h2, h3⟩
          refine ⟨h1, by omega, fun r hr1 hr2 => ?_⟩
          rcases Nat.lt_or_ge r (p + 2) with h | h
          · rcases Nat.eq_or_lt_of_le hr1 with rfl | h'
            · simpa using hm
            · by_contra hc
              have := ((matchAt_iff s r).mp (by simpa using hc)).1
              omega
          · exact h3 r h hr2
        · rintro ⟨h1, h2, h3⟩
          have hq := ((matchAt_iff s q).mp h1).1
          have hne : q ≠ p := fun e => hm (e ▸ h1)
          exact ⟨h1, by omega, fun r hr1 hr2 => h3 r (by omega) hr2⟩
    · rename_i hlen
      constructor
      · simp
      · rintro ⟨hm, hpq, -⟩
        have := ((matchAt_iff s q).mp hm).2.1
        omega

/-- R68: what a successful extraction is. -/
theorem tryExtractFrame_eq_some_iff (s : Memory) (f : List Byte) (r : Memory) :
    tryExtractFrame s = some (f, r) ↔
      ∃ p, findMarker s = some p ∧ p + 7388 ≤ s.length ∧ f = (s.drop p).take 7388 ∧ r = s.drop (p + 7388) := by
  unfold tryExtractFrame
  cases findMarker s with
  | none => simp
  | some p =>
    simp only [Config.frameSize_eq, Memory.dropFront, Option.some.injEq, exists_eq_left']
    split
    · simp_all [eq_comm]
    · simp_all

/-- R68: when there is no frame yet. -/
theorem tryExtractFrame_eq_none_iff (s : Memory) :
    tryExtractFrame s = none ↔ ∀ p, findMarker s = some p → s.length < p + 7388 := by
  unfold tryExtractFrame
  cases findMarker s with
  | none => simp
  | some p => simp

/-- `evenCeil` is the least even number at or above its argument. -/
theorem evenCeil_eq (n : Nat) : evenCeil n = n + n % 2 := by
  simp [evenCeil]; omega

/-- R72, with the figures. -/
theorem trimPoint_of_some {s : Memory} {p : Nat} (h : findMarker s = some p) : trimPoint s = p := by
  simp [trimPoint, h]

theorem trimPoint_of_none {s : Memory} (h : findMarker s = none) :
    trimPoint s = if s.length ≤ 5 then 0 else (s.length - 5) + (s.length - 5) % 2 := by
  simp [trimPoint, h, evenCeil_eq]

/-- One turn of the extraction loop (R74). -/
theorem cutFrames_succ_of_some {s : Memory} {f : List Byte} {r : Memory} (n : Nat)
    (h : tryExtractFrame s = some (f, r)) :
    cutFrames (n + 1) s = (f :: (cutFrames n r).1, (cutFrames n r).2) := by
  simp [cutFrames, h]

theorem cutFrames_of_none {s : Memory} (n : Nat) (h : tryExtractFrame s = none) : cutFrames n s = ([], s) := by
  cases n <;> simp [cutFrames, h]

end Sys2Proof.Machine
end

