-- ==== Sys2Proof/Laws/Answer.lean ====
section
/-! SUPPORT. The state after a word, operation by operation: the one place where the answer to a word is unfolded. -/

namespace Sys2Proof.Machine

variable (s : State)

/-- Every operation completes: `exec` answers the state that `send` names. -/
theorem answer_eq_next (tw : TWord) : answer tw s = .next (s.send tw) := by
  unfold State.send answer
  cases decodeWord tw with
  | error _ => rfl
  | ok i => cases i <;> rfl

theorem send_of_ok {tw : TWord} {i : Instr} (h : decodeWord tw = .ok i) : exec i s = .next (s.send tw) := by
  rw [← answer_eq_next]; simp [answer, h]

theorem send_of_error {tw : TWord} {e : Illegal} (h : decodeWord tw = .error e) :
    s.send tw = s.raiseError .illegalTw .illegal := by
  simp [State.send, answer, h]

/-- Two words that decode alike do the same. -/
theorem send_eq_sendOp {tw : TWord} {i : Instr} (h : decodeWord tw = .ok i) (hi : Laws.WordIsRead.Statement i) :
    s.send tw = s.sendOp i := by
  have h' : decodeWord (encode i) = .ok i := hi
  simp [State.sendOp, State.send, answer, h, h']

theorem wordIsRead : ∀ i : Instr, Laws.WordIsRead.Statement i
  | .push b => Laws.WordIsRead.push b
  | .extract => Laws.WordIsRead.extract
  | .trim => Laws.WordIsRead.trim
  | .decode => Laws.WordIsRead.decode
  | .setcfg i b => Laws.WordIsRead.setcfg i b
  | .correct => Laws.WordIsRead.correct
  | .emit => Laws.WordIsRead.emit
  | .clear => Laws.WordIsRead.clear

/-- The two things a word can be, and the state after each. -/
theorem send_cases (tw : TWord) :
    (∃ e, decodeWord tw = .error e ∧ s.send tw = s.raiseError .illegalTw .illegal) ∨
    (∃ i, decodeWord tw = .ok i ∧ s.send tw = s.sendOp i) := by
  cases h : decodeWord tw with
  | error e => exact .inl ⟨e, rfl, send_of_error s h⟩
  | ok i => exact .inr ⟨i, rfl, send_eq_sendOp s h (wordIsRead i)⟩

theorem eq_send_of_answer {tw : TWord} {t : State} (h : answer tw s = .next t) : t = s.send tw := by
  rw [answer_eq_next] at h
  injection h with h
  exact h.symm

theorem exec_eq_sendOp (i : Instr) : exec i s = .next (s.sendOp i) := send_of_ok s (wordIsRead i)

theorem isOp_of_ok {tw : TWord} {i : Instr} (h : decodeWord tw = .ok i) (o : Op) : isOp o tw = (i.op == o) := by
  simp [isOp, h]

theorem isOp_of_error {tw : TWord} {e : Illegal} (h : decodeWord tw = .error e) (o : Op) : isOp o tw = false := by
  simp [isOp, h]

theorem sendOp_push (b : Byte) : s.sendOp (.push b) =
    if atCapacity s.acc.length then s.respond .full else (s.setAcc (s.acc.append b)).respond .ok := by
  have h : decodeWord (encode (.push b)) = .ok (.push b) := Laws.WordIsRead.push b
  simp [State.sendOp, State.send, answer, h, exec, execPush]

theorem sendOp_extract : s.sendOp .extract =
    match s.frm with
    | some _ => s.respond .busy
    | none =>
      match tryExtractFrame s.acc with
      | none => s.respond .none
      | some (f, r) => ((s.setFrm (some f)).setAcc r).respond .ok := rfl

theorem sendOp_trim : s.sendOp .trim =
    if trimPoint s.acc = 0 then s.respond .none
    else (s.setAcc (s.acc.dropFront (trimPoint s.acc))).respond .ok := rfl

theorem sendOp_decode : s.sendOp .decode =
    s.stage s.frm s.raw decodeFrame fun raw => (s.setRaw (some raw)).setFrm none := rfl

theorem sendOp_setcfg (i b : Bool) : s.sendOp (.setcfg i b) = (s.setCfg (cfgOf i b)).respond .ok := by
  have h : decodeWord (encode (.setcfg i b)) = .ok (.setcfg i b) := Laws.WordIsRead.setcfg i b
  simp [State.sendOp, State.send, answer, h, exec, execSetcfg]

theorem sendOp_correct : s.sendOp .correct =
    s.stage s.raw s.out
      (fun raw => (correctFrame raw (cfgInvert s.cfg) (cfgBalanced s.cfg)).map (Event.mk raw))
      fun e => (s.setOut (some e)).setRaw none := rfl

theorem sendOp_emit : s.sendOp .emit =
    match s.out with
    | none => s.respond .empty
    | some e => ((s.handOver e).setOut none).respond .ok := rfl

theorem sendOp_clear : s.sendOp .clear =
    ((((s.setAcc []).setFrm none).setRaw none).setOut none).respond .ok := rfl

/-! ## The answers one by one, in the order of R130 -/

theorem sendOp_push_full {b : Byte} (h : atCapacity s.acc.length = true) : s.sendOp (.push b) = s.respond .full := by
  rw [sendOp_push]; simp [h]

theorem sendOp_push_ok {b : Byte} (h : atCapacity s.acc.length = false) :
    s.sendOp (.push b) = (s.setAcc (s.acc.append b)).respond .ok := by
  rw [sendOp_push]; simp [h]

theorem sendOp_extract_busy {f : List Byte} (h : s.frm = some f) : s.sendOp .extract = s.respond .busy := by
  rw [sendOp_extract]; simp [h]

theorem sendOp_extract_none (h : s.frm = none) (h' : tryExtractFrame s.acc = none) :
    s.sendOp .extract = s.respond .none := by
  rw [sendOp_extract]; simp [h, h']

theorem sendOp_extract_ok {f : List Byte} {r : Memory} (h : s.frm = none) (h' : tryExtractFrame s.acc = some (f, r)) :
    s.sendOp .extract = ((s.setFrm (some f)).setAcc r).respond .ok := by
  rw [sendOp_extract]; simp [h, h']

theorem sendOp_trim_none (h : trimPoint s.acc = 0) : s.sendOp .trim = s.respond .none := by
  rw [sendOp_trim]; simp [h]

theorem sendOp_trim_ok (h : trimPoint s.acc ≠ 0) :
    s.sendOp .trim = (s.setAcc (s.acc.dropFront (trimPoint s.acc))).respond .ok := by
  rw [sendOp_trim]; simp [h]

theorem sendOp_decode_empty (h : s.frm = none) : s.sendOp .decode = s.respond .empty := by
  rw [sendOp_decode, h]; rfl

theorem sendOp_decode_busy {f : List Byte} {r : List Sample} (h : s.frm = some f) (h' : s.raw = some r) :
    s.sendOp .decode = s.respond .busy := by
  rw [sendOp_decode, h, h']; rfl

theorem sendOp_decode_precond {f : List Byte} (h : s.frm = some f) (h' : s.raw = none) (hl : f.length ≠ 7388) :
    s.sendOp .decode = s.raiseError .precondDecode .precond := by
  rw [sendOp_decode, h, h', State.stage_error _ _ _ _ (decodeFrame_wrong_length hl)]

theorem sendOp_decode_ok {f : List Byte} (h : s.frm = some f) (h' : s.raw = none) (hl : f.length = 7388) :
    s.sendOp .decode = ((s.setRaw (some (samplesOf f))).setFrm none).respond .ok := by
  rw [sendOp_decode, h, h', State.stage_ok _ _ _ _ (decodeFrame_of_length hl)]

theorem sendOp_correct_empty (h : s.raw = none) : s.sendOp .correct = s.respond .empty := by
  rw [sendOp_correct, h]; rfl

theorem sendOp_correct_busy {r : List Sample} {e : Event} (h : s.raw = some r) (h' : s.out = some e) :
    s.sendOp .correct = s.respond .busy := by
  rw [sendOp_correct, h, h']; rfl

theorem sendOp_correct_precond {r : List Sample} (h : s.raw = some r) (h' : s.out = none) (hl : r.length ≠ 3694) :
    s.sendOp .correct = s.raiseError .precondCorrect .precond := by
  rw [sendOp_correct, h, h', State.stage_error (e := .precondCorrect)]
  rw [correctFrame_wrong_length hl]; rfl

/-- The CorrectedFrame that `CORRECT` writes. -/
theorem sendOp_correct_ok {r : List Sample} (h : s.raw = some r) (h' : s.out = none) (hl : r.length = 3694) :
    s.sendOp .correct =
      ((s.setOut (some ⟨r, (quarters r (cfgInvert s.cfg) (cfgBalanced s.cfg)).map (BitVec.ofInt 20)⟩)).setRaw none).respond
        .ok := by
  rw [sendOp_correct, h, h', State.stage_ok (c := Event.mk r _)]
  rw [correctFrame_of_length hl]; rfl

theorem sendOp_emit_empty (h : s.out = none) : s.sendOp .emit = s.respond .empty := by
  rw [sendOp_emit]; simp [h]

theorem sendOp_emit_ok {e : Event} (h : s.out = some e) :
    s.sendOp .emit = ((s.handOver e).setOut none).respond .ok := by
  rw [sendOp_emit]; simp [h]

end Sys2Proof.Machine
end

