-- ==== Sys2Proof/Laws/Session.lean ====
section
/-! SUPPORT. What an operation does beside the port, a run of pushes, and a frame at the front of the accumulator. -/

namespace Sys2Proof.Machine

/-! ## The port is no operand of an operation (R39, R136) -/

theorem State.stage_setPort {α β γ : Type} (s : State) (p : List PortEvent) (source : Option α) (destination : Option β)
    (f : α → Except ErrCode γ) (commit commit' : γ → State) (hc : ∀ c, commit' c = (commit c).setPort p) :
    (s.setPort p).stage source destination f commit' = (s.stage source destination f commit).setPort p := by
  unfold State.stage
  split
  · rfl
  · split
    · rfl
    · split
      · simp only [State.raiseError, State.recordError_eq]; rfl
      · rw [hc]; rfl

theorem sendOp_setPort (i : Instr) (s : State) (p : List PortEvent) :
    (s.setPort p).sendOp i = (s.sendOp i).setPort p := by
  cases i with
  | push b =>
    rw [sendOp_push, sendOp_push]; simp only [State.setPort_acc]
    by_cases h : atCapacity s.acc.length = true <;> simp only [h] <;> rfl
  | extract => rw [sendOp_extract, sendOp_extract]; simp only [State.setPort_acc, State.setPort_frm]; split; rfl; split <;> rfl
  | trim =>
    rw [sendOp_trim, sendOp_trim]; simp only [State.setPort_acc]
    by_cases h : trimPoint s.acc = 0 <;> simp only [h] <;> rfl
  | setcfg => rw [sendOp_setcfg, sendOp_setcfg]; rfl
  | emit => rw [sendOp_emit, sendOp_emit]; simp only [State.setPort_out]; split <;> rfl
  | clear => rfl
  | decode =>
    rw [sendOp_decode, sendOp_decode]
    exact State.stage_setPort s p _ _ _ _ _ fun _ => rfl
  | correct =>
    rw [sendOp_correct, sendOp_correct]
    exact State.stage_setPort s p _ _ _ _ _ fun _ => rfl

theorem send_setPort (tw : TWord) (s : State) (p : List PortEvent) : (s.setPort p).send tw = (s.send tw).setPort p := by
  rcases send_cases s tw with ⟨e, h, h'⟩ | ⟨i, h, h'⟩
  · rw [h', send_of_error _ h]; simp only [State.raiseError, State.recordError_eq]; rfl
  · rw [h', send_eq_sendOp _ h (wordIsRead i), sendOp_setPort]

/-! ## Runs -/

theorem runWords_append (s : State) (ws vs : List TWord) : runWords s (ws ++ vs) = runWords (runWords s ws) vs := by
  induction ws generalizing s with
  | nil => rfl
  | cons w ws ih => exact ih (s.send w)

theorem acceptedBytes_append (s : State) (ws vs : List TWord) :
    acceptedBytes s (ws ++ vs) = acceptedBytes s ws ++ acceptedBytes (runWords s ws) vs := by
  induction ws generalizing s with
  | nil => rfl
  | cons w ws ih => simp only [List.cons_append, acceptedBytes, runWords, ih, List.append_assoc]

/-- R69: pushes while there is room append their bytes in order. -/
theorem runWords_pushes (bs : List Byte) (s : State) (h : s.acc.length + bs.length ≤ 7388) (hne : bs ≠ []) :
    runWords s (bs.map fun b => encode (.push b)) = (s.setAcc (s.acc ++ bs)).respond .ok := by
  induction bs generalizing s with
  | nil => exact absurd rfl hne
  | cons b bs ih =>
    have hroom : atCapacity s.acc.length = false := atCapacity_of_lt (by simp at h ⊢; omega)
    have h1 : s.send (encode (.push b)) = (s.setAcc (s.acc.append b)).respond .ok := sendOp_push_ok s hroom
    simp only [List.map_cons, runWords, h1]
    by_cases hbs : bs = []
    · subst hbs; rfl
    · rw [ih _ (by simp at h ⊢; omega) hbs]
      simp [Memory.append, State.setAcc, State.respond]

theorem acceptedBytes_pushes (bs : List Byte) (s : State) (h : s.acc.length + bs.length ≤ 7388) :
    acceptedBytes s (bs.map fun b => encode (.push b)) = bs := by
  induction bs generalizing s with
  | nil => rfl
  | cons b bs ih =>
    have hroom : atCapacity s.acc.length = false := atCapacity_of_lt (by simp at h ⊢; omega)
    have h1 : s.send (encode (.push b)) = (s.setAcc (s.acc.append b)).respond .ok := sendOp_push_ok s hroom
    have hd : decodeWord (encode (.push b)) = .ok (.push b) := Laws.WordIsRead.push b
    simp only [List.map_cons, acceptedBytes, h1, hd, State.respond_rsp]
    rw [ih _ (by simp at h ⊢; omega)]
    rfl

/-! ## A frame at the front -/

theorem findMarker_eq_some_iff (s : Memory) (q : Nat) :
    findMarker s = some q ↔ matchAt s q = true ∧ ∀ r, r < q → matchAt s r = false := by
  unfold findMarker
  rw [scanFrom_eq_some_iff s s.length 0 q rfl (by omega)]
  simp

/-- R66, R67: a sequence that begins with the marker has its first match at 0. -/
theorem findMarker_of_marker (t : List Byte) : findMarker (markerBytes ++ t) = some 0 := by
  have e : markerBytes = [0x9D, 0x00, 0x3A, 0x00, 0x47, 0x00] := by decide
  rw [findMarker_eq_some_iff, matchAt_iff]
  refine ⟨⟨rfl, by simp [e], ?_⟩, fun r h => absurd h (by omega)⟩
  simp only [e, Memory.readWord, Memory.read, List.cons_append, Nat.zero_add, List.getElem?_cons_succ, List.getElem?_cons_zero]
  decide

/-- R68: a frame at the front is the first one extracted. -/
theorem tryExtractFrame_of_marker (payload t : List Byte) (h : payload.length = 7382) :
    tryExtractFrame (markerBytes ++ payload ++ t) = some (markerBytes ++ payload, t) := by
  have e : markerBytes.length = 6 := by decide
  have hl : (markerBytes ++ payload).length = 7388 := by simp [e, h]
  rw [tryExtractFrame_eq_some_iff]
  refine ⟨0, ?_, by simp [e, h]; omega, ?_, ?_⟩
  · rw [List.append_assoc]; exact findMarker_of_marker _
  · rw [List.drop_zero, List.take_left' hl]
  · rw [Nat.zero_add, List.drop_left' hl]

/-- R67: nothing shorter than the marker holds it. -/
theorem findMarker_of_short {s : Memory} (h : s.length < 6) : findMarker s = none := by
  cases hf : findMarker s with
  | none => rfl
  | some p =>
    have := ((matchAt_iff s p).mp ((findMarker_eq_some_iff s p).mp hf).1).2.1
    omega

theorem tryExtractFrame_of_short {s : Memory} (h : s.length < 7388) : tryExtractFrame s = none := by
  rw [tryExtractFrame_eq_none_iff]; intro p _; omega

end Sys2Proof.Machine
end

