-- ==== Sys2Proof/Tests/Slice0.lean ====
section
/-! SUPPORT. The model's own tests, with expected results from spec/95_test_vectors.md (the vector's id is named) and the
encodings of spec/30_encoding.md; then, for each statement of Certificates/Slice0/Obligations.lean that has hypotheses, states
that meet them. -/

namespace Sys2Proof.Tests

open Sys2Proof.Machine

/-! ## Well-formed words: one ill-formed word for each clause of R55 -/

theorem test_refuses_op_zero : TWord.opIsZero 0x00FF = true ∧ TWord.legal 0x00FF = false ∧
    decodeWord 0x00FF = .error .opZero := by decide

theorem test_refuses_reserved_op : TWord.opIsReserved 0x0900 = true ∧ TWord.legal 0x0900 = false ∧
    decodeWord 0x0900 = .error .opReserved ∧ decodeWord 0xFFFF = .error .opReserved := by decide

theorem test_refuses_stray_argument : TWord.argIsStray 0x0201 = true ∧ TWord.legal 0x0201 = false ∧
    decodeWord 0x0201 = .error .argNotZero ∧ decodeWord 0x07FF = .error .argNotZero ∧
    decodeWord 0x0801 = .error .argNotZero := by decide

theorem test_refuses_stray_cfg_bits : TWord.cfgBitsAreStray 0x0504 = true ∧ TWord.legal 0x0504 = false ∧
    decodeWord 0x0504 = .error .cfgReservedBits ∧ decodeWord 0x0580 = .error .cfgReservedBits := by decide

theorem test_accepts_legal_words :
    ([0x0100, 0x01FF, 0x0200, 0x0300, 0x0400, 0x0500, 0x0503, 0x0600, 0x0700, 0x0800] : List TWord).all TWord.legal = true := by
  decide

/-! ## Decoding: words written bit by bit from R50 and R52, one for every operation -/

theorem test_decode_push : decodeWord 0b00000001_10011101 = .ok (.push 0x9D) := by decide
theorem test_decode_extract : decodeWord 0b00000010_00000000 = .ok .extract := by decide
theorem test_decode_trim : decodeWord 0b00000011_00000000 = .ok .trim := by decide
theorem test_decode_decode : decodeWord 0b00000100_00000000 = .ok .decode := by decide
theorem test_decode_setcfg : decodeWord 0b00000101_00000001 = .ok (.setcfg true false) ∧
    decodeWord 0b00000101_00000010 = .ok (.setcfg false true) := by decide
theorem test_decode_correct : decodeWord 0b00000110_00000000 = .ok .correct := by decide
theorem test_decode_emit : decodeWord 0b00000111_00000000 = .ok .emit := by decide
theorem test_decode_clear : decodeWord 0b00001000_00000000 = .ok .clear := by decide

/-- The interface of the host: 16 bits of the word, the bits above read as 0. -/
theorem test_decodeTableWord : decodeTableWord 16 0x0503 = some (.setcfg true true) ∧
    decodeTableWord 16 0x0504 = none ∧ decodeTableWord 16 0x0201 = none := by decide

/-! ## Operations, one word at a time (section 2.5) -/

/-- V1, V2. -/
theorem test_extract_trim_on_reset :
    State.reset.send 0x0200 = { State.reset with rsp := some .none } ∧
    State.reset.send 0x0300 = { State.reset with rsp := some .none } := by decide

/-- V3, V4, V5. -/
theorem test_stages_on_reset :
    State.reset.send 0x0400 = { State.reset with rsp := some .empty } ∧
    State.reset.send 0x0600 = { State.reset with rsp := some .empty } ∧
    State.reset.send 0x0700 = { State.reset with rsp := some .empty } := by decide

/-- V7, V8. -/
theorem test_setcfg_push_on_reset :
    State.reset.send 0x0503 = { State.reset with cfg := 3, rsp := some .ok } ∧
    State.reset.send 0x01FF = { State.reset with acc := [0xFF], rsp := some .ok } := by decide

/-- V10, V12: `EMPTY` before `BUSY`. -/
theorem test_empty_before_busy :
    ({ State.reset with raw := some [] }.send 0x0400).rsp = some .empty ∧
    ({ State.reset with out := some ⟨[], []⟩ }.send 0x0600).rsp = some .empty := by decide

/-- V9, V11, V13: a full destination. -/
theorem test_busy :
    ({ State.reset with acc := [1], frm := some [] }.send 0x0200) =
      { State.reset with acc := [1], frm := some [], rsp := some .busy } ∧
    ({ State.reset with frm := some [], raw := some [] }.send 0x0400).rsp = some .busy ∧
    ({ State.reset with raw := some [], out := some ⟨[], []⟩ }.send 0x0600).rsp = some .busy := by decide

/-- V15, V16, V17. -/
theorem test_illegal_is_sticky_and_changes_nothing_else :
    State.reset.send 0x0000 = { State.reset with err := 3, rsp := some .illegal } ∧
    ({ State.reset with err := 3 }.send 0x0201).err = 3 ∧
    { State.reset with cfg := 3, err := 1 }.send 0x0504 = { State.reset with cfg := 3, err := 1, rsp := some .illegal } := by
  decide

/-- The state of V19. -/
def occupied : State where
  acc := [1, 2, 3]
  frm := some []
  raw := some []
  out := some ⟨[], []⟩
  cfg := 1
  err := 3
  outq := [⟨[], []⟩, ⟨[], []⟩]
  rsp := none
  port := []

/-- V19, V20: what `CLEAR` keeps and reset does not. -/
theorem test_clear_and_reset :
    occupied.send 0x0800 =
      { occupied with acc := [], frm := none, raw := none, out := none, rsp := some .ok } ∧
    occupied.applyReset = State.reset := by decide

/-- R116: one event is handed over, behind the older ones. -/
theorem test_emit : { State.reset with out := some ⟨[7], [8]⟩, outq := [⟨[], []⟩] }.send 0x0700 =
    { State.reset with outq := [⟨[], []⟩, ⟨[7], [8]⟩], rsp := some .ok } := by decide

/-- R21, R15, R58: the level outputs. -/
theorem test_status : occupied.status = ⟨3, true, true, true, 1, 3⟩ ∧
    occupied.portOut = ⟨true, false, 0⟩ ∧ (occupied.send 0x0200).portOut = ⟨true, true, 2⟩ := by decide

/-- The step takes the word that `withFetchWord` presents. -/
theorem test_step_runs_the_word :
    step (State.reset.withFetchWord 16 0x0502) = .next { State.reset with cfg := 2, rsp := some .ok } := by rfl

/-- R153: an illegal word is what makes a run of a legal state go wrong. -/
theorem test_goneWrong : State.reset.goneWrong = false ∧ (State.reset.send 0x0900).goneWrong = true := by decide

/-! ## The synchronizer (sections 2.1, 2.2) -/

/-- S2, S3, S4. -/
theorem test_findMarker_position : findMarker [0x9D, 0, 0x3A, 0, 0x47, 0] = some 0 ∧
    findMarker [0, 0x9D, 0, 0x3A, 0, 0x47, 0] = none ∧
    findMarker [0xAA, 0xBB, 0x9D, 0, 0x3A, 0, 0x47, 0] = some 2 := by decide

/-- S6, S9, S10. -/
theorem test_findMarker_least :
    findMarker [0x11, 0x22, 0x9D, 0, 0x3A, 0, 0x47, 0, 0x33, 0x44, 0x9D, 0, 0x3A, 0, 0x47, 0] = some 2 ∧
    findMarker [0x9D, 0, 0x9D, 0, 0x3A, 0, 0x47, 0] = some 2 ∧
    findMarker [0x9D, 0, 0x3A, 0, 0x9D, 0, 0x3A, 0, 0x47, 0] = some 4 := by decide

/-- S5, S7, S11, S20, S21, S22: no match. -/
theorem test_findMarker_none :
    ([[0x9D, 0, 0x3A, 0, 0x47], [0x9D, 0, 0x3A, 0, 0x47, 1], [0x3A, 0, 0x47, 0, 0x9D, 0], [0x9D, 1, 0x3A, 0, 0x47, 0],
      [0x47, 0, 0x3A, 0, 0x9D, 0], [0, 0x9D, 0, 0x3A, 0, 0x47, 0, 0]] : List Memory).all (fun s => findMarker s == none) =
      true := by decide

/-- S12 to S18: the trim point. -/
theorem test_trimPoint :
    ([[1, 2, 3, 4, 5], [1, 2, 3, 4, 5, 6], [1, 2, 3, 4, 5, 6, 7], [1, 2, 3, 4, 5, 6, 7, 8], [1, 2, 3, 4, 5, 6, 7, 8, 9],
      [7, 7, 7, 0x9D, 0, 0x3A, 0, 0x47], [7, 7, 7, 7, 0x9D, 0, 0x3A, 0, 0x47]] : List Memory).map trimPoint =
      [0, 2, 2, 4, 4, 4, 4] := by decide

/-- S18: what `TRIM` keeps. -/
theorem test_trim_keeps_the_open_marker :
    { State.reset with acc := [7, 7, 7, 7, 0x9D, 0, 0x3A, 0, 0x47] }.send 0x0300 =
      { State.reset with acc := [0x9D, 0, 0x3A, 0, 0x47], rsp := some .ok } := by decide

/-! ## The decoder (section 2.3) -/

/-- Q1, Q4, Q7: byte order. -/
theorem test_samples : samplesOf [0x00, 0x01, 0x01, 0x00, 0x06, 0x07, 0xDA, 0xDB] = [256, 1, 1798, 56282] := by decide

/-- R46: the marker's words in arrival order. -/
theorem test_marker_bytes : markerBytes = [0x9D, 0x00, 0x3A, 0x00, 0x47, 0x00] := by decide

/-! ## The corrector (section 2.4), on the first 26 samples -/

/-- The first samples of K2. -/
def k2 : List Sample := [1000, 1000, 1000, 1000, 1000, 1000, 1000, 1000, 1000, 1000, 1200, 1300, 1000, 1000, 1000, 1000, 1000,
  1000, 1010, 1001, 1020, 1002, 1030, 1003, 1041, 1004]

/-- K2: dark level and offset. -/
theorem test_corrector_offsets : dark4 k2 = 5000 ∧ offset4 (inverted4 k2) = -91 := by decide

/-- K2: the corrected values 0, 1, 10, 11, 18, 19, 24, 25 in the modes (1, 0), (1, 1) and (0, 1). -/
theorem test_corrector_values :
    [0, 1, 10, 11, 18, 19, 24, 25].map ((quarters k2 true false)[·]?.getD 0) =
      [1000, 1000, 200, -200, 960, 996, 836, 984] ∧
    [0, 1, 10, 11, 18, 19, 24, 25].map ((quarters k2 true true)[·]?.getD 0) =
      [1091, 1000, 291, -200, 1051, 996, 927, 984] ∧
    [0, 1, 10].map ((quarters k2 false true)[·]?.getD 0) = [4000, 4000, 4800] := by decide

/-- K5, K6, K7, K8: the patterns of the extreme values in `s20`. -/
theorem test_s20_patterns : [(-262140 : Int), 262140, 524280, -524280].map (BitVec.ofInt 20) =
    [0xC0004, 0x3FFFC, 0x7FFF8, 0x80008] := by decide

/-! ## The assembler (R56) and the scripts (R57) -/

theorem test_parse_lines :
    parseLine ['P', 'U', 'S', 'H', ' ', '1', '5', '7'] = some (some ⟨.push 157, none⟩) ∧
    parseLine ['S', 'E', 'T', 'C', 'F', 'G', ' ', '1', ',', '0', ' ', '-', '>', ' ', 'O', 'K'] =
      some (some ⟨.setcfg true false, some .ok⟩) ∧
    parseLine ['P', 'U', 'S', 'H', ' ', '2', '5', '6'] = none ∧ parseLine [';', 'x'] = some none := by decide

theorem test_expand_script :
    (Script.rep 2 (.pushs [1] .done) (.frame .done)).expand = some [.push 1, .push 1, .extract, .decode, .correct, .emit] ∧
    (Script.drain .done).expand = none := by decide

/-! ## States that meet the hypotheses of the statements -/

/-- 7382 bytes after a marker. -/
@[irreducible] def payload : List Byte := List.replicate 7382 0

/-- A frame: a marker and its payload. -/
def frame : List Byte := markerBytes ++ payload

/-- A RawFrame that begins with the marker's words. -/
@[irreducible] def rawFrame : List Sample := [157, 58, 71] ++ List.replicate 3691 0

/-- A pair. -/
def event : Event := ⟨rawFrame, (quarters rawFrame true true).map (BitVec.ofInt 20)⟩

/-- A state with every element occupied. -/
def full : State where
  acc := [1, 2, 3]
  frm := some frame
  raw := some rawFrame
  out := some event
  cfg := 1
  err := 3
  outq := [event]
  rsp := none
  port := []

theorem payload_length : payload.length = 7382 := by rw [payload, List.length_replicate]
theorem markerBytes_length : markerBytes.length = 6 := by decide
theorem frame_length : frame.length = 7388 := by
  rw [frame, List.length_append, payload_length, markerBytes_length]
theorem rawFrame_length : rawFrame.length = 3694 := by
  rw [rawFrame, List.length_append, List.length_replicate]; rfl
theorem event_cor_length : event.cor.length = 3694 := by
  rw [event, List.length_map, quarters_length, rawFrame_length]
theorem extract_frame : tryExtractFrame frame = some (frame, []) := by
  have h := tryExtractFrame_of_marker payload [] payload_length
  rwa [List.append_nil] at h

theorem frameOk_frame : FrameOk frame := by
  refine ⟨frame_length, ?_⟩
  rw [Config.markerBytesLen_eq]
  exact List.take_left' markerBytes_length

theorem rawOk_rawFrame : RawOk rawFrame := ⟨rawFrame_length, by rw [Config.markerWords_eq, rawFrame]; exact List.take_left' rfl⟩

theorem eventOk_event : EventOk event :=
  ⟨rawOk_rawFrame, event_cor_length, true, true, correctFrame_of_length rawFrame_length true true⟩

/-- PreconditionsHold, InvariantsAreKept, NoDeadlock: an invariant state with every element occupied. -/
theorem witness_BlockInv : BlockInv full where
  acc := fun c hc => by
    have h : Config.frameSize ≤ c := Config.frameSize_le_accCap hc
    have h3 : full.acc.length = 3 := rfl
    simp at h; omega
  frm := fun f h => by injection h with h; exact h ▸ frameOk_frame
  raw := fun r h => by injection h with h; exact h ▸ rawOk_rawFrame
  out := fun e h => by injection h with h; exact h ▸ eventOk_event
  outq := fun e h => by rw [List.mem_singleton.mp h]; exact eventOk_event
  err := .inr rfl

/-- NoDeadlock, PushAppendsOrIsFull: with any finite capacity, an invariant state whose accumulator is full, so that `PUSH` is
answered `FULL` in it. -/
theorem witness_full_accumulator {n : Nat} (h : Config.accCap = some n) :
    BlockInv { State.reset with acc := List.replicate n 0 } ∧
    ({ State.reset with acc := List.replicate n 0 }.sendOp (.push 0)).rsp = some .full := by
  refine ⟨⟨fun c hc => ?_, nofun, nofun, nofun, nofun, .inl rfl⟩, ?_⟩
  · have hc' : Config.accCap = some c := hc
    rw [h] at hc'
    injection hc' with hc'
    rw [← hc']
    exact Nat.le_of_eq List.length_replicate
  · have hl : (List.replicate n (0 : Byte)).length = n := List.length_replicate
    rw [sendOp_push_full _ ((atCapacity_iff _).mpr (hl.symm ▸ h))]
    rfl

/-- InvariantsAreKept: a step from an invariant state. -/
theorem witness_InvariantsAreKept :
    BlockInv State.reset ∧ ∃ t, step (State.reset.withFetchWord 16 0x019D) = .next t ∧ t.acc = [0x9D] :=
  ⟨⟨Memory.wf_nil, nofun, nofun, nofun, nofun, .inl rfl⟩, _, rfl, by decide⟩

/-- IllegalWords: a word of each clause, at the ends of its range. -/
theorem witness_IllegalWords :
    [0x0000, 0x00FF, 0x0900, 0xFFFF, 0x0201, 0x02FF, 0x0801, 0x08FF, 0x0504, 0x05FF].all
      (fun tw : TWord => match decodeWord tw with | .error _ => true | .ok _ => false) = true := by decide

/-- EveryWordGetsOneResponse: a response that is not `OK`, and one that is neither `ILLEGAL` nor `PRECOND`. -/
theorem witness_EveryWordGetsOneResponse :
    (State.reset.send 0x0000).rsp = some .illegal ∧ (State.reset.send 0x0200).rsp = some .none := by decide

/-- StepRunsTheDecodedWord. -/
theorem witness_StepRunsTheDecodedWord :
    { State.reset with port := [.word 0x0503] }.port = .word 0x0503 :: [] ∧
    decodeWord 0x0503 = .ok (.setcfg true true) ∧ State.reset.port = [] := by decide

/-- ResetFromAnyState: reset while a word is in progress, with and without a word to come. -/
theorem witness_ResetFromAnyState :
    { occupied with port := [.rst (some 0x0700)] }.port = .rst (some 0x0700) :: [] ∧
    { occupied with port := [.rst none, .word 0x0200] }.port = .rst none :: [.word 0x0200] := by decide

/-- SetcfgAndClearAreIdempotent. -/
theorem witness_SetcfgAndClearAreIdempotent :
    exec .clear occupied = .next (occupied.sendOp .clear) ∧
    exec (.setcfg true false) occupied = .next (occupied.sendOp (.setcfg true false)) :=
  ⟨exec_eq_sendOp _ _, exec_eq_sendOp _ _⟩

/-- BeatsOfAnEvent. -/
theorem witness_BeatsOfAnEvent : event.raw.length = 3694 ∧ event.cor.length = 3694 :=
  ⟨rawFrame_length, event_cor_length⟩

/-- ErrorsArePrecise: both kinds of error. -/
theorem witness_ErrorsArePrecise :
    (answer 0x0201 occupied = .next (occupied.send 0x0201) ∧ (occupied.send 0x0201).rsp = some .illegal) ∧
    (answer 0x0400 { State.reset with frm := some [] } = .next ({ State.reset with frm := some [] }.send 0x0400) ∧
      ({ State.reset with frm := some [] }.send 0x0400).rsp = some .precond) :=
  ⟨⟨answer_eq_next _ _, by decide⟩, answer_eq_next _ _, by decide⟩

/-- ErrIsSticky: an error recorded, and none. -/
theorem witness_ErrIsSticky : occupied.err ≠ 0 ∧ State.reset.err = 0 := by decide

/-- PreconditionViolation, and the same clauses of DecodeMovesTheFrame and CorrectMovesTheFrame: one byte short, one sample
more. -/
theorem witness_PreconditionViolation :
    (List.replicate 7387 (0 : Byte)).length ≠ 7388 ∧ (List.replicate 3695 (0 : Sample)).length ≠ 3694 ∧
    { State.reset with frm := some (List.replicate 7387 0) }.frm = some (List.replicate 7387 0) ∧
    { State.reset with raw := some (List.replicate 3695 0) }.raw = some (List.replicate 3695 0) :=
  ⟨by rw [List.length_replicate]; decide, by rw [List.length_replicate]; decide, rfl, rfl⟩

/-- PushCompletes: the least and the greatest length, and an offset other than the one stored to. -/
theorem witness_PushCompletes :
    State.reset.acc.length < 7388 ∧ { State.reset with acc := List.replicate 7387 0 }.acc.length < 7388 ∧ 0 ≠ 7387 :=
  ⟨by decide, by show (List.replicate 7387 (0 : Byte)).length < 7388; rw [List.length_replicate]; decide, by decide⟩

/-- ExtractCutsTheFirstFrame, FrameMovesOneFrame, FramesUnfold: the three answers. -/
theorem witness_ExtractCutsTheFirstFrame :
    full.frm = some frame ∧ State.reset.frm = none ∧ tryExtractFrame State.reset.acc = none ∧
    { State.reset with acc := frame }.frm = none ∧
    tryExtractFrame { State.reset with acc := frame }.acc = some (frame, []) :=
  ⟨rfl, rfl, by decide, rfl, extract_frame⟩

/-- TrimDropsThePrefix, TrimPointValue: nothing to trim; no marker and the two lengths of what is kept; a marker behind
garbage. -/
theorem witness_TrimDropsThePrefix :
    trimPoint State.reset.acc = 0 ∧
    (trimPoint [1, 2, 3, 4, 5, 6] ≠ 0 ∧ findMarker [1, 2, 3, 4, 5, 6] = none) ∧
    (trimPoint [1, 2, 3, 4, 5, 6, 7] ≠ 0 ∧ findMarker [1, 2, 3, 4, 5, 6, 7] = none) ∧
    (trimPoint [0xAA, 0xBB, 0x9D, 0, 0x3A, 0, 0x47, 0] ≠ 0 ∧
      findMarker [0xAA, 0xBB, 0x9D, 0, 0x3A, 0, 0x47, 0] ≠ none) ∧
    (findMarker [1, 2, 3, 4, 5] = none ∧ [1, 2, 3, 4, 5].length ≤ 5) := by decide

/-- DecodeMovesTheFrame: the three answers. -/
theorem witness_DecodeMovesTheFrame :
    State.reset.frm = none ∧ (full.frm = some frame ∧ full.raw = some rawFrame) ∧
    ({ State.reset with frm := some frame }.raw = none ∧ frame.length = 7388 ∧ FrameOk frame) :=
  ⟨rfl, ⟨rfl, rfl⟩, rfl, frame_length, frameOk_frame⟩

/-- SetcfgWritesTheModes: a word of its code with a reserved bit. -/
theorem witness_SetcfgWritesTheModes :
    (0x0504 : TWord).toNat / 256 = 5 ∧ (0x0504 : TWord).toNat % 256 / 4 ≠ 0 ∧
    answer 0x0504 occupied = .next (occupied.send 0x0504) :=
  ⟨by decide, by decide, answer_eq_next _ _⟩

/-- CorrectMovesTheFrame: the three answers. -/
theorem witness_CorrectMovesTheFrame :
    State.reset.raw = none ∧ (full.raw = some rawFrame ∧ full.out = some event) ∧
    ({ State.reset with raw := some rawFrame }.out = none ∧ rawFrame.length = 3694 ∧
      { State.reset with raw := some rawFrame }.cfg.getLsbD 0 = false) :=
  ⟨rfl, ⟨rfl, rfl⟩, rfl, rawFrame_length, rfl⟩

/-- EmitHandsOver: both answers, and a word that adds to `OUTQ`. -/
theorem witness_EmitHandsOver : State.reset.out = none ∧ full.out = some event ∧
    answer 0x0700 occupied = .next (occupied.send 0x0700) ∧ (occupied.send 0x0700).outq ≠ occupied.outq :=
  ⟨rfl, rfl, answer_eq_next _ _, by decide⟩

/-- OperationsOffMemoryLeaveIt: an operation and an illegal word. -/
theorem witness_OperationsOffMemoryLeaveIt :
    (answer 0x0400 occupied = .next (occupied.send 0x0400) ∧ answer 0x0101 occupied = .next (occupied.send 0x0101)) ∧
    [0x0400, 0x0503, 0x0600, 0x0700, 0x0001].all (fun tw : TWord =>
      !(isOp .push tw || isOp .extract tw || isOp .trim tw || isOp .clear tw)) = true :=
  ⟨⟨answer_eq_next _ _, answer_eq_next _ _⟩, by decide⟩

/-- WritersOfEachElement: every element can change. -/
theorem witness_WritersOfEachElement :
    (State.reset.send 0x0101).acc ≠ State.reset.acc ∧ (occupied.send 0x0800).frm ≠ occupied.frm ∧
    (occupied.send 0x0800).raw ≠ occupied.raw ∧ (occupied.send 0x0700).out ≠ occupied.out ∧
    (occupied.send 0x0502).cfg ≠ occupied.cfg ∧ (occupied.send 0x0700).outq ≠ occupied.outq ∧
    (State.reset.send 0x0000).err ≠ State.reset.err := by decide

/-- FlagsFollowTheRegisters: every flag can be set and cleared. -/
theorem witness_FlagsFollowTheRegisters :
    ({ State.reset with acc := frame }.frmFull = false ∧ ({ State.reset with acc := frame }.sendOp .extract).frmFull = true) ∧
    ({ State.reset with frm := some frame }.frmFull = true ∧
      ({ State.reset with frm := some frame }.sendOp .decode).frmFull = false) ∧
    ({ State.reset with frm := some frame }.rawFull = false ∧
      ({ State.reset with frm := some frame }.sendOp .decode).rawFull = true) ∧
    ({ State.reset with raw := some rawFrame }.rawFull = true ∧
      ({ State.reset with raw := some rawFrame }.sendOp .correct).rawFull = false) ∧
    ({ State.reset with raw := some rawFrame }.outFull = false ∧
      ({ State.reset with raw := some rawFrame }.sendOp .correct).outFull = true) ∧
    (occupied.outFull = true ∧ (occupied.sendOp .emit).outFull = false) := by
  refine ⟨⟨rfl, ?_⟩, ⟨rfl, ?_⟩, ⟨rfl, ?_⟩, ⟨rfl, ?_⟩, ⟨rfl, ?_⟩, rfl, rfl⟩
  · rw [sendOp_extract_ok { State.reset with acc := frame } rfl extract_frame]; rfl
  · rw [sendOp_decode_ok { State.reset with frm := some frame } rfl rfl frame_length]; rfl
  · rw [sendOp_decode_ok { State.reset with frm := some frame } rfl rfl frame_length]; rfl
  · rw [sendOp_correct_ok { State.reset with raw := some rawFrame } rfl rfl rawFrame_length]; rfl
  · rw [sendOp_correct_ok { State.reset with raw := some rawFrame } rfl rfl rawFrame_length]; rfl

/-- AccumulatorChanges. -/
theorem witness_AccumulatorChanges : answer 0x0101 occupied = .next (occupied.send 0x0101) := answer_eq_next _ _

/-- FindMarkerIsTheLeastMatch, FirstMatchIsStable: fewer than six bytes; a marker that the added byte completes; one that is
there already. -/
theorem witness_FirstMatchIsStable :
    [0x9D, 0, 0x3A, 0, (0x47 : Byte)].length < 6 ∧ findMarker [0x9D, 0, 0x3A, 0, 0x47] = none ∧
    findMarker ([0x9D, 0, 0x3A, 0, 0x47] ++ [0]) = some 0 ∧ findMarker [0x9D, 0, 0x3A, 0, 0x47, 0] = some 0 := by decide

/-- ExtractionIsOfTheFirstMatch, IncompleteFrameIsKept: no marker; exactly one frame; one byte short (X2, X3). -/
theorem witness_ExtractionIsOfTheFirstMatch :
    findMarker ([] : Memory) = none ∧
    (findMarker frame = some 0 ∧ 0 + 7388 ≤ frame.length) ∧
    (findMarker (markerBytes ++ List.replicate 7381 0) = some 0 ∧
      (markerBytes ++ List.replicate 7381 0).length < 0 + 7388) :=
  ⟨by decide, ⟨findMarker_of_marker _, by rw [frame_length]⟩, findMarker_of_marker _,
    by rw [List.length_append, markerBytes_length, List.length_replicate]; decide⟩

/-- IncompleteFrameIsKept: a marker with nothing behind it. -/
theorem witness_IncompleteFrameIsKept :
    findMarker { State.reset with acc := markerBytes }.acc = some 0 ∧ ({ State.reset with acc := markerBytes }).acc.length < 0 + 7388 ∧
    exec .extract { State.reset with acc := markerBytes } =
      .next ({ State.reset with acc := markerBytes }.sendOp .extract) :=
  ⟨by decide, by decide, exec_eq_sendOp _ _⟩

/-- FrameInGarbageIsFound: garbage as in X1. -/
theorem witness_FrameInGarbageIsFound :
    [0xDE, 0xAD, 0xBE, (0xEF : Byte)].length % 2 = 0 ∧ (∀ p, matchAt [0xDE, 0xAD, 0xBE, 0xEF] p = false) ∧
    payload.length = 7382 := by
  refine ⟨rfl, fun p => ?_, payload_length⟩
  rw [Bool.eq_false_iff, ne_eq, matchAt_iff]
  intro h
  have h2 := h.2.1
  simp at h2

/-- A session: one frame pushed byte by byte. -/
def pushFrame : List TWord := frame.map fun b => encode (.push b)

theorem frame_ne_nil : frame ≠ [] := fun h => by have := frame_length; rw [h] at this; cases this

/-- After the pushes, from any state with room, the frame stands in the accumulator. -/
theorem runWords_pushFrame (s : State) (h : s.acc = []) : runWords s pushFrame = (s.setAcc frame).respond .ok := by
  have h0 : s.acc.length + frame.length ≤ 7388 := by rw [frame_length, h]; decide
  have h1 := runWords_pushes frame s h0 frame_ne_nil
  rwa [h, List.nil_append] at h1

/-- The run of the one-shot mode: the frame pushed, then `FRAME`. -/
theorem runWords_session (s : State) (h : s.sessionStart) :
    (runWords s (pushFrame ++ frameOps)).complete ∧ (runWords s (pushFrame ++ frameOps)).acc = [] ∧
    (runWords s (pushFrame ++ frameOps)).outq.length = s.outq.length + 1 := by
  obtain ⟨ha, hf, hr, ho⟩ := h
  rw [runWords_append, runWords_pushFrame s ha]
  have hl : (samplesOf frame).length = 3694 := by rw [samplesOf_length, frame_length]
  have h1 := sendOp_extract_ok ((s.setAcc frame).respond .ok) hf extract_frame
  have h2 := sendOp_decode_ok (((s.setAcc frame).respond .ok).sendOp .extract) (by rw [h1]; rfl) (by rw [h1]; exact hr) frame_length
  have h3 := sendOp_correct_ok ((((s.setAcc frame).respond .ok).sendOp .extract).sendOp .decode) (by rw [h2]; rfl)
    (by rw [h2, h1]; exact ho) hl
  have h4 := sendOp_emit_ok (((((s.setAcc frame).respond .ok).sendOp .extract).sendOp .decode).sendOp .correct)
    (by rw [h3]; rfl)
  have he : runWords ((s.setAcc frame).respond .ok) frameOps =
    ((((((s.setAcc frame).respond .ok).sendOp .extract).sendOp .decode).sendOp .correct).sendOp .emit) := rfl
  have hacc : (runWords ((s.setAcc frame).respond .ok) frameOps).acc = [] := by
    rw [he, h4, h3, h2, h1]; rfl
  refine ⟨⟨⟨?_, ?_, ?_⟩, ?_⟩, hacc, ?_⟩
  · rw [he, h4, h3, h2]; rfl
  · rw [he, h4, h3]; rfl
  · rw [he, h4]; rfl
  · rw [hacc]; decide
  · rw [he, h4, h3, h2, h1]; simp

theorem pushFrame_ops (w : TWord) (hw : w ∈ pushFrame ++ frameOps) :
    isOp .clear w = false ∧ isOp .setcfg w = false ∧ isOp .trim w = false := by
  rcases List.mem_append.mp hw with h | h
  · obtain ⟨b, -, rfl⟩ := List.mem_map.mp h
    have hd : decodeWord (encode (.push b)) = .ok (.push b) := Laws.WordIsRead.push b
    exact ⟨isOp_of_ok hd _, isOp_of_ok hd _, isOp_of_ok hd _⟩
  · clear hw
    have hall : frameOps.all (fun w => !isOp .clear w && !isOp .setcfg w && !isOp .trim w) = true := by decide
    have h2 := List.all_eq_true.mp hall w h
    simpa [and_assoc] using h2

theorem accepted_session (s : State) (h : s.acc = []) : acceptedBytes s (pushFrame ++ frameOps) = frame := by
  have h0 : s.acc.length + frame.length ≤ 7388 := by rw [frame_length, h]; decide
  have h1 : acceptedBytes s pushFrame = frame := acceptedBytes_pushes frame s h0
  have h2 : ∀ s, acceptedBytes s frameOps = [] := fun s => rfl
  rw [acceptedBytes_append, h1, h2, List.append_nil]

/-- EndToEndLaw, EveryByteInOnePlace, ChunkSizeIndependence: a session from reset that emits a frame and is complete, with no
`CLEAR` and no `TRIM`. -/
theorem witness_EndToEndLaw :
    State.reset.sessionStart ∧ State.reset.acc = [] ∧
    (∀ w ∈ pushFrame ++ frameOps, isOp .clear w = false ∧ isOp .setcfg w = false ∧ isOp .trim w = false) ∧
    (runWords State.reset (pushFrame ++ frameOps)).complete ∧
    tryExtractFrame (runWords State.reset (pushFrame ++ frameOps)).acc = none ∧
    (runWords State.reset (pushFrame ++ frameOps)).outq.length = 1 := by
  have hs : State.reset.sessionStart := ⟨rfl, rfl, rfl, rfl⟩
  obtain ⟨hc, -, hq⟩ := runWords_session State.reset hs
  exact ⟨hs, rfl, pushFrame_ops, hc, hc.2, hq⟩

/-- The words of `TRIM` and `EXTRACT`, sent before there is anything to find. -/
theorem runWords_early : runWords State.reset [0x0300, 0x0200] = { State.reset with rsp := some .none } := by decide

/-- ScheduleDoesNotMatter: a second session of the same accepted bytes, with an early `TRIM` and an early `EXTRACT`. -/
theorem witness_ScheduleDoesNotMatter :
    State.reset.sessionStart ∧
    (∀ w ∈ pushFrame ++ frameOps, isOp .clear w = false ∧ isOp .setcfg w = false) ∧
    (∀ w ∈ [0x0300, 0x0200] ++ (pushFrame ++ frameOps), isOp .clear w = false ∧ isOp .setcfg w = false) ∧
    acceptedBytes State.reset (pushFrame ++ frameOps) =
      acceptedBytes State.reset ([0x0300, 0x0200] ++ (pushFrame ++ frameOps)) ∧
    (runWords State.reset (pushFrame ++ frameOps)).complete ∧
    (runWords State.reset ([0x0300, 0x0200] ++ (pushFrame ++ frameOps))).complete := by
  have hs : State.reset.sessionStart := ⟨rfl, rfl, rfl, rfl⟩
  have he : ({ State.reset with rsp := some .none } : State).sessionStart := ⟨rfl, rfl, rfl, rfl⟩
  refine ⟨hs, fun w hw => ⟨(pushFrame_ops w hw).1, (pushFrame_ops w hw).2.1⟩, fun w hw => ?_, ?_,
    (runWords_session _ hs).1, ?_⟩
  · rcases List.mem_append.mp hw with h | h
    · have hall : [0x0300, 0x0200].all (fun w => !isOp .clear w && !isOp .setcfg w) = true := by decide
      simpa using List.all_eq_true.mp hall w h
    · exact ⟨(pushFrame_ops w h).1, (pushFrame_ops w h).2.1⟩
  · rw [acceptedBytes_append State.reset [0x0300, 0x0200], runWords_early, accepted_session _ rfl, accepted_session _ rfl]
    rfl
  · rw [runWords_append State.reset [0x0300, 0x0200], runWords_early]
    exact (runWords_session _ he).1

/-- MisalignedSessionGivesNothing: a session with one byte. -/
theorem witness_MisalignedSessionGivesNothing :
    State.reset.acc = [] ∧ (∀ w ∈ [(0x0155 : TWord)], isOp .clear w = false) ∧
    ∀ p, matchAt (acceptedBytes State.reset [0x0155]) p = false := by
  refine ⟨rfl, fun w hw => by rw [List.mem_singleton.mp hw]; decide, fun p => ?_⟩
  have e : acceptedBytes State.reset [0x0155] = [0x55] := by decide
  rw [e, Bool.eq_false_iff, ne_eq, matchAt_iff]
  intro h
  have h2 := h.2.1
  simp at h2

/-- DecodeIsLittleEndian, DecodeIsABijection, WrongLengthsGiveNoValue. -/
theorem witness_DecodeIsLittleEndian :
    frame.length = 7388 ∧ ([] : List Byte).length ≠ 7388 ∧ ([] : List Sample).length ≠ 3694 ∧ rawFrame[0]? = some 157 :=
  ⟨frame_length, by decide, by decide, by rw [rawFrame]; rfl⟩

/-- OffsetsAreExact, CorrectClosedForm, CorrectedValuesFit, BalanceTouchesEvenIndicesOnly. -/
theorem witness_OffsetsAreExact : rawFrame.length = 3694 := rawFrame_length

/-- DarkSubtractionExample: the document's frame (E5). -/
theorem witness_DarkSubtractionExample :
    ∃ raw : List Sample, raw.length = 3694 ∧
      ∀ j < 3694, raw[j]? = some (if j = 10 then 100 else if j = 11 then 200 else 50) :=
  ⟨(List.range 3694).map fun j => if j = 10 then 100 else if j = 11 then 200 else 50, by simp, fun j hj => by
    simp [List.getElem?_range hj]⟩

/-- FrameMovesOneFrame, DrainEmitsEveryFrame: empty stage registers, with a frame to move and without. -/
theorem witness_DrainEmitsEveryFrame :
    State.reset.stagesEmpty ∧ { State.reset with acc := frame }.stagesEmpty ∧
    tryExtractFrame { State.reset with acc := frame }.acc = some (frame, []) :=
  ⟨⟨rfl, rfl, rfl⟩, ⟨rfl, rfl, rfl⟩, extract_frame⟩

/-- BackpressureLosesNothing. -/
theorem witness_BackpressureLosesNothing : full.frmFull = true ∧ full.rawFull = true ∧ full.outFull = true :=
  ⟨rfl, rfl, rfl⟩

end Sys2Proof.Tests
end

section
/-! PROOFS. The decoder and the encoder of the transaction word (spec/30_encoding.md R49 to R52) and the illegal words (R55). -/

namespace Sys2Proof

/-! ## The rows of the operation map, in numbers -/

/-- How many low bits of a word a format leaves to the operand (R50): the bits that the row's mask clears. -/
def Format.operandBits : Format → Nat
  | .b => 8
  | .c => 2
  | .n => 0

/-- R52's masks and matches clear exactly the operand bits of R50. -/
theorem opTable_clears_operandBits : ∀ r ∈ opTable,
    r.mask = BitVec.allOnes 16 <<< r.format.operandBits ∧
    r.matchBits &&& r.mask = r.matchBits := by
  decide

/-- Clearing the low `k` bits compares words by their quotients. -/
theorem and_allOnes_shiftLeft_eq_iff (x y : TWord) (k : Nat) :
    x &&& BitVec.allOnes 16 <<< k = y &&& BitVec.allOnes 16 <<< k ↔ x.toNat / 2 ^ k = y.toNat / 2 ^ k := by
  have toNat_clear (z : TWord) : (z &&& BitVec.allOnes 16 <<< k).toNat = z.toNat / 2 ^ k * 2 ^ k := by
    have hz : z.toNat / 2 ^ k * 2 ^ k < 2 ^ 16 := (Nat.div_mul_le_self _ _).trans_lt z.isLt
    rw [← BitVec.shiftLeft_ushiftRight, BitVec.toNat_shiftLeft, BitVec.toNat_ushiftRight,
      Nat.shiftRight_eq_div_pow, Nat.shiftLeft_eq, Nat.mod_eq_of_lt hz]
  rw [← BitVec.toNat_inj, toNat_clear, toNat_clear, Nat.mul_left_inj (by positivity)]

/-- A word hits a row when it agrees with the row's word above the operand bits. -/
theorem hits_iff {r : OpRow} (hr : r ∈ opTable) (tw : TWord) :
    r.hits tw = true ↔ tw.toNat / 2 ^ r.format.operandBits = r.matchBits.toNat / 2 ^ r.format.operandBits := by
  obtain ⟨hmask, hmatch⟩ := opTable_clears_operandBits r hr
  rw [← and_allOnes_shiftLeft_eq_iff, ← hmask, hmatch, OpRow.hits, beq_iff_eq]

/-- The decoder refuses the words that hit no row (R52, R55). -/
theorem decodeWord_error_iff (tw : TWord) :
    (∃ e, decodeWord tw = .error e) ↔ ∀ r ∈ opTable, ¬ r.hits tw = true := by
  rw [← List.find?_eq_none (p := fun r : OpRow => r.hits tw), decodeWord]
  cases opTable.find? (·.hits tw) <;> simp

/-! ## The words of the operations -/

theorem toNat_encode_push (b : Byte) : (encode (.push b)).toNat = 256 + b.toNat := by
  rw [encode, BitVec.toNat_append, ← Nat.shiftLeft_add_eq_or_of_lt b.isLt]
  rfl

theorem toNat_encode_setcfg (invert balanced : Bool) :
    (encode (.setcfg invert balanced)).toNat = 1280 + 2 * balanced.toNat + invert.toNat := by
  revert invert balanced; decide

theorem toNat_argField (tw : TWord) : (argField tw).toNat = tw.toNat % 256 := by
  simp [argField]

theorem toNat_invertField (tw : TWord) : (invertField tw).toNat = tw.toNat % 2 :=
  Nat.toNat_testBit tw.toNat 0 |>.trans (by simp)

theorem toNat_balancedField (tw : TWord) : (balancedField tw).toNat = tw.toNat / 2 % 2 :=
  Nat.toNat_testBit tw.toNat 1

/-- Format B (R50, R51): the operation code and the argument are the whole word. -/
theorem eq_encode_push {tw : TWord} (h : tw.toNat / 256 = 1) : tw = encode (.push (argField tw)) := by
  apply BitVec.eq_of_toNat_eq
  rw [toNat_encode_push, toNat_argField]
  omega

/-- Format C (R50, R51): the bits above the two modes and the modes are the whole word. -/
theorem eq_encode_setcfg {tw : TWord} (h : tw.toNat / 4 = 320) :
    tw = encode (.setcfg (invertField tw) (balancedField tw)) := by
  apply BitVec.eq_of_toNat_eq
  rw [toNat_encode_setcfg, toNat_invertField, toNat_balancedField]
  omega

/-- Format N (R50): no bit is left to an operand, so the row's own word is the whole word. -/
theorem eq_of_no_operandBits {tw w : TWord} (h : tw.toNat / 2 ^ 0 = w.toNat / 2 ^ 0) : tw = w :=
  BitVec.eq_of_toNat_eq (by simpa using h)

/-- A word that hits a row is the word of the operation assembled from it: no bit of the word is lost (R51). -/
theorem eq_encode_assemble_of_hits {r : OpRow} (hr : r ∈ opTable) {tw : TWord} (h : r.hits tw = true) :
    tw = encode (assemble r.op tw) := by
  rw [hits_iff hr] at h
  simp only [opTable, List.mem_cons, List.not_mem_nil, or_false] at hr
  rcases hr with rfl | rfl | rfl | rfl | rfl | rfl | rfl | rfl
  exacts [eq_encode_push h, eq_of_no_operandBits h, eq_of_no_operandBits h, eq_of_no_operandBits h, eq_encode_setcfg h,
    eq_of_no_operandBits h, eq_of_no_operandBits h, eq_of_no_operandBits h]

/-- The words that the decoder reads as an operation: that operation's word, and no other. -/
theorem decodeWord_eq_ok_iff (tw : TWord) (i : Instr) : decodeWord tw = .ok i ↔ tw = encode i := by
  constructor
  · intro h
    rw [decodeWord] at h
    split at h
    case h_1 r hfind =>
      rw [← Except.ok.inj h]
      have hhits : r.hits tw = true := List.find?_some (p := fun r : OpRow => r.hits tw) hfind
      exact eq_encode_assemble_of_hits (List.mem_of_find?_eq_some hfind) hhits
    case h_2 => nomatch h
  · rintro rfl
    exact Machine.wordIsRead i

theorem encode_injective : Function.Injective encode := fun i _ h =>
  Except.ok.inj ((Machine.wordIsRead i).symm.trans ((decodeWord_eq_ok_iff _ _).mpr h))

/-! ## All operations -/

/-- Every operation once: 256 bytes to push, the six without operand, the four modes. -/
def allInstrs : List Instr :=
  (List.finRange 256).map (fun b => .push (.ofFin b)) ++ Machine.plainInstrs ++
    [.setcfg false false, .setcfg true false, .setcfg false true, .setcfg true true]

theorem mem_allInstrs (i : Instr) : i ∈ allInstrs := by
  cases i with
  | push b => simp [allInstrs]
  | setcfg invert balanced => cases invert <;> cases balanced <;> simp [allInstrs]
  | extract | trim | decode | correct | emit | clear => simp [allInstrs, Machine.plainInstrs]

theorem allInstrs_nodup : allInstrs.Nodup := by
  have hpush : ((List.finRange 256).map (fun b => Instr.push (.ofFin b))).Nodup :=
    (List.nodup_finRange 256).map fun a b h => by simpa using h
  rw [allInstrs, List.append_assoc]
  refine hpush.append (by decide) ?_
  simp [List.disjoint_left, Machine.plainInstrs]

theorem length_allInstrs : allInstrs.length = 266 := by
  simp [allInstrs, Machine.plainInstrs]

/-! ## Illegal words -/

/-- The decoder refuses exactly the words of R55's four clauses. -/
theorem decodeWord_error_iff_clauses (tw : TWord) :
    (∃ e, decodeWord tw = .error e) ↔
      (tw.toNat / 256 = 0 ∨ 9 ≤ tw.toNat / 256 ∨
        (tw.toNat / 256 ∈ [2, 3, 4, 6, 7, 8] ∧ tw.toNat % 256 ≠ 0) ∨
        (tw.toNat / 256 = 5 ∧ tw.toNat % 256 / 4 ≠ 0)) := by
  rw [decodeWord_error_iff]
  have hrows : (∀ r ∈ opTable, ¬ r.hits tw = true) ↔ ∀ r ∈ opTable,
      tw.toNat / 2 ^ r.format.operandBits ≠ r.matchBits.toNat / 2 ^ r.format.operandBits :=
    forall₂_congr fun r hr => not_congr (hits_iff hr tw)
  rw [hrows]
  simp [opTable, Format.operandBits]
  omega

namespace Machine

/-- R133: what an error changes, as one update of the state. -/
theorem State.raiseError_eq (s : State) (e : ErrCode) (r : Resp) :
    s.raiseError e r = { s with err := if s.err = 0 then e.code else s.err, rsp := some r } := by
  rw [State.raiseError, State.recordError_eq]
  rfl

/-- Settles O3: the rows in numbers give the four clauses, the words of all operations are the legal words, and an illegal
word is answered by `raiseError`. -/
theorem illegalWords : Obligations.IllegalWords := by
  unfold Obligations.IllegalWords
  refine ⟨decodeWord_error_iff_clauses, ⟨allInstrs.map encode, ?nodup, ?length, ?mem⟩, ?effect⟩
  case nodup => exact allInstrs_nodup.map encode_injective
  case length => rw [List.length_map, length_allInstrs]
  case mem =>
    intro tw
    simp only [decodeWord_eq_ok_iff, List.mem_map, mem_allInstrs, true_and, eq_comm (a := tw)]
  case effect =>
    intro tw e s h
    rw [answer_eq_next, send_of_error s h, State.raiseError_eq]
    rfl

end Machine

end Sys2Proof
end

section
/-! PROOFS. The frame synchronizer (spec/40_synchronizer.md): matches and the first match (R66, R67, R75), extraction (R68,
R74), and the operations PUSH (R69) and EXTRACT (R70, R78). -/

namespace Sys2Proof.Machine

/-! ## Words as bytes -/

/-- R31: a little-endian word fixes both of its bytes. -/
theorem wordOf_inj {lo hi lo' hi' : Byte} : wordOf lo hi = wordOf lo' hi' ↔ lo = lo' ∧ hi = hi' := by
  simp only [← BitVec.toNat_inj, wordOf_toNat]
  omega

/-- Every word is the word of the two bytes that `bytesOf` writes for it. -/
theorem wordOf_bytes (w : Sample) : wordOf (BitVec.ofNat 8 (w.toNat % 256)) (BitVec.ofNat 8 (w.toNat / 256)) = w := by
  apply BitVec.eq_of_toNat_eq
  simp only [wordOf_toNat, BitVec.toNat_ofNat]
  omega

theorem Memory.readWord_eq_some_wordOf_iff (m : Memory) (a : Nat) (lo hi : Byte) :
    m.readWord a = some (wordOf lo hi) ↔ m[a]? = some lo ∧ m[a + 1]? = some hi := by
  simp [Memory.readWord_eq_some_iff, wordOf_inj]

/-- A list stands at an offset when its head does and its tail stands one further. -/
theorem cons_prefix_drop_iff {α : Type} (b : α) (bs l : List α) (a : Nat) :
    b :: bs <+: l.drop a ↔ l[a]? = some b ∧ bs <+: l.drop (a + 1) := by
  rw [← List.head?_drop, ← List.tail_drop]
  cases l.drop a <;> simp [List.cons_prefix_cons, eq_comm]

/-- Words stand at an offset exactly when their bytes do. -/
theorem wordsAt_iff_prefix (s : Memory) (a : Nat) (ws : List Sample) :
    wordsAt s a ws = true ↔ bytesOf ws <+: s.drop a := by
  induction ws generalizing a with
  | nil => simp [wordsAt, bytesOf]
  | cons w ws ih =>
    have hw : s.readWord a = some w ↔
        s[a]? = some (BitVec.ofNat 8 (w.toNat % 256)) ∧ s[a + 1]? = some (BitVec.ofNat 8 (w.toNat / 256)) := by
      rw [← Memory.readWord_eq_some_wordOf_iff, wordOf_bytes]
    simp only [wordsAt, bytesOf, Bool.and_eq_true, beq_iff_eq, cons_prefix_drop_iff, hw, ih, and_assoc]

/-! ## Matches -/

/-- R66, by bytes. -/
theorem matchAt_iff_bytes (s : Memory) (p : Nat) :
    matchAt s p = true ↔ p % 2 = 0 ∧ p + 6 ≤ s.length ∧ (s.drop p).take 6 = [0x9D, 0x00, 0x3A, 0x00, 0x47, 0x00] := by
  have hbytes : bytesOf Config.markerWords = [0x9D, 0x00, 0x3A, 0x00, 0x47, 0x00] := by decide
  have hwords : wordsAt s p Config.markerWords = true ↔ (s.drop p).take 6 = [0x9D, 0x00, 0x3A, 0x00, 0x47, 0x00] := by
    rw [wordsAt_iff_prefix, hbytes, List.prefix_iff_eq_take, eq_comm]
    rfl
  simp only [matchAt, Config.scanStep_eq, Config.markerBytesLen_eq, Bool.and_eq_true, beq_iff_eq, decide_eq_true_eq, hwords,
    and_assoc]

/-- Settles O29: the two forms of R66, word by word and byte by byte. -/
theorem matchIsTheMarkerWindow : Obligations.MatchIsTheMarkerWindow := by
  unfold Obligations.MatchIsTheMarkerWindow
  exact fun s p => ⟨matchAt_iff s p, matchAt_iff_bytes s p⟩

/-- R66 reads the six bytes of the window only, so bytes appended behind it do not matter. -/
theorem matchAt_append {s : Memory} {p : Nat} (h : p + 6 ≤ s.length) (t : Memory) : matchAt (s ++ t) p = matchAt s p := by
  have hwindow : ((s ++ t).drop p).take 6 = (s.drop p).take 6 := by
    rw [List.drop_append_of_le_length (by omega), List.take_append_of_le_length (by rw [List.length_drop]; omega)]
  have hlen : p + 6 ≤ (s ++ t).length := by rw [List.length_append]; omega
  rw [Bool.eq_iff_iff, matchAt_iff_bytes, matchAt_iff_bytes, hwindow]
  simp only [h, hlen]

/-! ## The first match -/

/-- R67: the scan finds nothing exactly when there is no match; the least match is the one it would find. -/
theorem findMarker_eq_none_iff (s : Memory) : findMarker s = none ↔ ∀ p, matchAt s p = false := by
  constructor
  · intro hnone p
    by_contra hp
    have hex : ∃ q, matchAt s q = true := ⟨p, by simpa using hp⟩
    have hfirst : findMarker s = some (Nat.find hex) :=
      (findMarker_eq_some_iff s _).mpr ⟨Nat.find_spec hex, fun q hq => by simpa using Nat.find_min hex hq⟩
    rw [hnone] at hfirst
    nomatch hfirst
  · intro hno
    rw [Option.eq_none_iff_forall_ne_some]
    intro p hp
    have hmatch := ((findMarker_eq_some_iff s p).mp hp).1
    rw [hno p] at hmatch
    nomatch hmatch

/-- Settles O30, by the scan's characterisation and the least element of a set of matches. -/
theorem findMarkerIsTheLeastMatch : Obligations.FindMarkerIsTheLeastMatch := by
  unfold Obligations.FindMarkerIsTheLeastMatch
  exact fun s => ⟨findMarker_eq_some_iff s, findMarker_eq_none_iff s, findMarker_of_short⟩

/-- What a first match is: an even offset, its window inside, and no match before it. -/
theorem matchAt_of_findMarker {s : Memory} {p : Nat} (h : findMarker s = some p) :
    matchAt s p = true ∧ p % 2 = 0 ∧ p + 6 ≤ s.length ∧ ∀ q < p, matchAt s q = false := by
  obtain ⟨hmatch, hleast⟩ := (findMarker_eq_some_iff s p).mp h
  obtain ⟨heven, hlen, -⟩ := (matchAt_iff s p).mp hmatch
  exact ⟨hmatch, heven, hlen, hleast⟩

/-- No match lies before the first one. -/
theorem le_of_findMarker {s : Memory} {p q : Nat} (h : findMarker s = some p) (hq : matchAt s q = true) : p ≤ q := by
  obtain ⟨-, -, -, hleast⟩ := matchAt_of_findMarker h
  by_contra hlt
  rw [hleast q (by omega)] at hq
  nomatch hq

/-- R75: the window of the first match and those before it lie inside, so appending bytes does not move it. -/
theorem findMarker_append_of_some {s : Memory} {p : Nat} (h : findMarker s = some p) (t : Memory) :
    findMarker (s ++ t) = some p := by
  obtain ⟨hmatch, -, hlen, hleast⟩ := matchAt_of_findMarker h
  rw [findMarker_eq_some_iff, matchAt_append hlen]
  refine ⟨hmatch, fun q hq => ?_⟩
  rw [matchAt_append (by omega)]
  exact hleast q hq

/-- R75: a match that appended bytes bring has a window that ends in them. -/
theorem window_outside_of_matchAt_append {s t : Memory} {q : Nat} (h : findMarker s = none)
    (hq : matchAt (s ++ t) q = true) : s.length < q + 6 := by
  by_contra hlen
  rw [matchAt_append (by omega), (findMarker_eq_none_iff s).mp h q] at hq
  nomatch hq

/-- Settles O34, by what a match reads. -/
theorem firstMatchIsStable : Obligations.FirstMatchIsStable := by
  unfold Obligations.FirstMatchIsStable
  refine fun s t => ⟨fun p h => findMarker_append_of_some h t, fun q hnone hq => ?_⟩
  obtain ⟨hmatch, heven, -⟩ := matchAt_of_findMarker hq
  exact ⟨heven, window_outside_of_matchAt_append hnone hmatch⟩

/-! ## Extraction -/

theorem tryExtractFrame_of_findMarker {s : Memory} {p : Nat} (h : findMarker s = some p) (hlen : p + 7388 ≤ s.length) :
    tryExtractFrame s = some ((s.drop p).take 7388, s.drop (p + 7388)) :=
  (tryExtractFrame_eq_some_iff s _ _).mpr ⟨p, h, hlen, rfl, rfl⟩

theorem tryExtractFrame_of_findMarker_none {s : Memory} (h : findMarker s = none) : tryExtractFrame s = none := by
  rw [tryExtractFrame_eq_none_iff, h]
  nofun

theorem tryExtractFrame_of_incomplete {s : Memory} {p : Nat} (h : findMarker s = some p) (hlen : s.length < p + 7388) :
    tryExtractFrame s = none := by
  rw [tryExtractFrame_eq_none_iff, h]
  rintro _ ⟨⟩
  exact hlen

/-- Settles O31: the three cases of R68. -/
theorem extractionIsOfTheFirstMatch : Obligations.ExtractionIsOfTheFirstMatch := by
  unfold Obligations.ExtractionIsOfTheFirstMatch
  refine fun s => ⟨tryExtractFrame_of_findMarker_none, fun p hp hlen => ?complete, fun p hp hlen => ?incomplete⟩
  case complete =>
    refine ⟨_, _, tryExtractFrame_of_findMarker hp hlen, ?_, ?_⟩
    · rw [List.length_take, List.length_drop]
      omega
    · rw [List.append_assoc, ← List.drop_drop, List.take_append_drop, List.take_append_drop]
  case incomplete =>
    refine ⟨tryExtractFrame_of_incomplete hp hlen, fun q hq => ?_⟩
    have hpq : p ≤ q := le_of_findMarker hp hq
    omega

/-- R70: an extraction takes the bytes before the first match and one frame off the front, and nothing else. -/
theorem remainder_of_tryExtractFrame {s r : Memory} {f : List Byte} (h : tryExtractFrame s = some (f, r)) :
    ∃ p, findMarker s = some p ∧ s.length = p + 7388 + r.length ∧ r = s.dropFront (p + 7388) := by
  obtain ⟨p, hp, hlen, -, hr⟩ := (tryExtractFrame_eq_some_iff s f r).mp h
  refine ⟨p, hp, ?_, hr⟩
  rw [hr, List.length_drop]
  omega

theorem length_remainder_of_tryExtractFrame {s r : Memory} {f : List Byte} (h : tryExtractFrame s = some (f, r)) :
    r.length + 7388 ≤ s.length := by
  obtain ⟨p, -, hlen, -⟩ := remainder_of_tryExtractFrame h
  omega

/-! ## Repeated extraction -/

/-- R74: every frame shortens the sequence, so any two fuels of at least its length cut it alike. -/
theorem cutFrames_eq_of_length_le (n m : Nat) (s : Memory) (hn : s.length ≤ n) (hm : s.length ≤ m) :
    cutFrames n s = cutFrames m s := by
  induction n generalizing m s with
  | zero =>
    have hnone : tryExtractFrame s = none := tryExtractFrame_of_short (by omega)
    rw [cutFrames_of_none 0 hnone, cutFrames_of_none m hnone]
  | succ n ih =>
    cases h : tryExtractFrame s with
    | none => rw [cutFrames_of_none _ h, cutFrames_of_none _ h]
    | some fr =>
      obtain ⟨f, r⟩ := fr
      have hr : r.length + 7388 ≤ s.length := length_remainder_of_tryExtractFrame h
      obtain ⟨k, rfl⟩ : ∃ k, m = k + 1 := ⟨m - 1, by omega⟩
      rw [cutFrames_succ_of_some n h, cutFrames_succ_of_some k h, ih k r (by omega) (by omega)]

theorem cutFrames_eq {n : Nat} {s : Memory} (h : s.length ≤ n) : cutFrames n s = (frames s, rest s) :=
  cutFrames_eq_of_length_le n s.length s h le_rfl

/-- R74, with no frame to extract. -/
theorem frames_rest_of_none {s : Memory} (h : tryExtractFrame s = none) : frames s = [] ∧ rest s = s := by
  rw [← Prod.mk.injEq, ← cutFrames_eq le_rfl, cutFrames_of_none _ h]

/-- R74, with a frame to extract. -/
theorem frames_rest_of_some {s r : Memory} {f : List Byte} (h : tryExtractFrame s = some (f, r)) :
    frames s = f :: frames r ∧ rest s = rest r := by
  have hr : r.length ≤ s.length := by
    have := length_remainder_of_tryExtractFrame h
    omega
  rw [← Prod.mk.injEq, ← cutFrames_eq (Nat.le_succ s.length), cutFrames_succ_of_some _ h, cutFrames_eq hr]

/-- Settles O33: one turn of the loop, whose fuel does not matter. -/
theorem framesUnfold : Obligations.FramesUnfold := by
  unfold Obligations.FramesUnfold
  refine fun s => ⟨frames_rest_of_none, fun f r h => ?_⟩
  obtain ⟨hframes, hrest⟩ := frames_rest_of_some h
  exact ⟨hframes, hrest, length_remainder_of_tryExtractFrame h⟩

/-! ## The operations -/

/-- Settles O16: the two answers of `PUSH`, split by whether the accumulator is at its capacity. -/
theorem pushAppendsOrIsFull : Obligations.PushAppendsOrIsFull := by
  unfold Obligations.PushAppendsOrIsFull
  refine fun b s => ⟨?_, toNat_encode_push b⟩
  rw [exec_eq_sendOp]
  by_cases hcap : Config.accCap = some s.acc.length
  · rw [if_pos hcap, sendOp_push_full s ((atCapacity_iff _).mpr hcap)]
    rfl
  · have hroom : atCapacity s.acc.length = false := by rwa [← Bool.not_eq_true, atCapacity_iff]
    rw [if_neg hcap, sendOp_push_ok s hroom]
    rfl

/-- Settles O18: the three answers of `EXTRACT`, and what a frame takes off the front. -/
theorem extractCutsTheFirstFrame : Obligations.ExtractCutsTheFirstFrame := by
  unfold Obligations.ExtractCutsTheFirstFrame
  refine fun s => ⟨fun f hf => ?busy, fun hf hnone => ?none, fun f r hf hsome => ⟨?ok, ?cut⟩, rfl⟩
  case busy => rw [exec_eq_sendOp, sendOp_extract_busy s hf]; rfl
  case none => rw [exec_eq_sendOp, sendOp_extract_none s hf hnone]; rfl
  case ok => rw [exec_eq_sendOp, sendOp_extract_ok s hf hsome]; rfl
  case cut =>
    obtain ⟨p, hp, hlen, rfl⟩ := remainder_of_tryExtractFrame hsome
    obtain ⟨-, heven, -⟩ := matchAt_of_findMarker hp
    exact ⟨p, hp, heven, hlen, Memory.read_dropFront s.acc (p + 7388)⟩

/-- Where there is nothing to extract, `EXTRACT` changes only its response, `BUSY` before `NONE` (R70). -/
theorem sendOp_extract_of_no_frame (s : State) (h : tryExtractFrame s.acc = none) :
    s.sendOp .extract = s.respond .none ∨ s.sendOp .extract = s.respond .busy := by
  cases hfrm : s.frm with
  | none => exact .inl (sendOp_extract_none s hfrm h)
  | some f => exact .inr (sendOp_extract_busy s hfrm)

/-- Settles O36: an incomplete frame is no frame to extract. -/
theorem incompleteFrameIsKept : Obligations.IncompleteFrameIsKept := by
  unfold Obligations.IncompleteFrameIsKept
  intro s t p hp hlen ht
  rw [exec_eq_sendOp] at ht
  cases ht
  rcases sendOp_extract_of_no_frame s (tryExtractFrame_of_incomplete hp hlen) with h | h
  · exact ⟨.inl (by rw [h, State.respond_rsp]), by rw [h, State.respond_acc]⟩
  · exact ⟨.inr (by rw [h, State.respond_rsp]), by rw [h, State.respond_acc]⟩

end Sys2Proof.Machine
end

section
/-! PROOFS. The frame decoder (spec/41_decoder.md): `decode` by samples (R86), its inverse (R87), the document's example (R90)
and the operation DECODE (R88). -/

namespace Sys2Proof.Machine

/-! ## The inverse -/

/-- Samples that stand in front as bytes are read back as they were. -/
theorem samplesOf_bytesOf_append (raw : List Sample) (fb : List Byte) :
    samplesOf (bytesOf raw ++ fb) = raw ++ samplesOf fb := by
  induction raw with
  | nil => rfl
  | cons x rest ih => rw [bytesOf, List.cons_append, List.cons_append, samplesOf, wordOf_bytes, ih, List.cons_append]

/-- R87, from samples to bytes and back. -/
theorem samplesOf_bytesOf (raw : List Sample) : samplesOf (bytesOf raw) = raw := by
  simpa [samplesOf] using samplesOf_bytesOf_append raw []

/-- The bytes that `bytesOf` writes for the word of two bytes are those two. -/
theorem bytes_wordOf (lo hi : Byte) :
    BitVec.ofNat 8 ((wordOf lo hi).toNat % 256) = lo ∧ BitVec.ofNat 8 ((wordOf lo hi).toNat / 256) = hi :=
  wordOf_inj.mp (wordOf_bytes (wordOf lo hi))

/-- R87, from bytes to samples and back: where the number of bytes is even, none is left over. -/
theorem bytesOf_samplesOf : ∀ {fb : List Byte}, 2 ∣ fb.length → bytesOf (samplesOf fb) = fb
  | [], _ => rfl
  | [_], h => by simp at h
  | lo :: hi :: rest, h => by
    have hrest : 2 ∣ rest.length := (Nat.dvd_add_left (dvd_refl 2)).mp h
    obtain ⟨hlo, hhi⟩ := bytes_wordOf lo hi
    rw [samplesOf, bytesOf, hlo, hhi, bytesOf_samplesOf hrest]

/-- R87: the values of `decode` are exactly what the inverse undoes. -/
theorem decodeFrame_ok_iff_bytesOf (fb : List Byte) (raw : List Sample) :
    decodeFrame fb = .ok raw ↔ raw.length = 3694 ∧ fb = bytesOf raw := by
  rw [decodeFrame_ok_iff]
  constructor
  · rintro ⟨hlen, rfl⟩
    exact ⟨by rw [samplesOf_length, hlen], (bytesOf_samplesOf (by omega)).symm⟩
  · rintro ⟨hlen, rfl⟩
    exact ⟨by rw [bytesOf_length, hlen], samplesOf_bytesOf raw⟩

/-- R87: reading the inverse's bytes `2*i` and `2*i + 1` as a word gives sample `i` again, and a word fixes its bytes. -/
theorem bytesOf_getElem? {raw : List Sample} {i : Nat} {x : Sample} (h : raw[i]? = some x) :
    (bytesOf raw)[2 * i]? = some (BitVec.ofNat 8 (x.toNat % 256)) ∧
    (bytesOf raw)[2 * i + 1]? = some (BitVec.ofNat 8 (x.toNat / 256)) := by
  rw [← Memory.readWord_eq_some_wordOf_iff, wordOf_bytes, ← samplesOf_getElem?, samplesOf_bytesOf, h]

/-- Bits 7:0 of a sample. -/
theorem extractLsb'_low_byte (x : Sample) : x.extractLsb' 0 8 = BitVec.ofNat 8 (x.toNat % 256) := by
  apply BitVec.eq_of_toNat_eq
  simp

/-- Bits 15:8 of a sample. -/
theorem extractLsb'_high_byte (x : Sample) : x.extractLsb' 8 8 = BitVec.ofNat 8 (x.toNat / 256) := by
  apply BitVec.eq_of_toNat_eq
  simp [Nat.shiftRight_eq_div_pow]

/-- Settles O42: the inverse undoes `decode` on both sides, and its bytes by arithmetic are its bytes by bits. -/
theorem decodeIsABijection : Obligations.DecodeIsABijection := by
  unfold Obligations.DecodeIsABijection
  refine ⟨decodeFrame_ok_iff_bytesOf, fun raw i x h => ?_⟩
  obtain ⟨hlow, hhigh⟩ := bytesOf_getElem? h
  exact ⟨hlow, hhigh, by rw [hlow, extractLsb'_low_byte], by rw [hhigh, extractLsb'_high_byte]⟩

/-! ## The samples -/

/-- R86: every sample is the little-endian word of two bytes that are there. -/
theorem bytes_of_samplesOf_getElem? {fb : List Byte} {i : Nat} (h : i < (samplesOf fb).length) :
    ∃ lo hi x, fb[2 * i]? = some lo ∧ fb[2 * i + 1]? = some hi ∧ (samplesOf fb)[i]? = some x ∧
      x.toNat = lo.toNat + 256 * hi.toNat := by
  have hx : (samplesOf fb)[i]? = some (samplesOf fb)[i] := List.getElem?_eq_getElem h
  have hword := hx
  rw [samplesOf_getElem?, Memory.readWord_eq_some_iff] at hword
  obtain ⟨lo, hi, hlo, hhi, hw⟩ := hword
  exact ⟨lo, hi, _, hlo, hhi, hx, by rw [← hw, wordOf_toNat]⟩

/-- R86, R88 (d): a frame's length fixes the number of its samples. -/
theorem length_samplesOf_frame {fb : List Byte} (h : fb.length = 7388) : (samplesOf fb).length = 3694 := by
  rw [samplesOf_length, h]

/-- Settles O41, sample by sample. -/
theorem decodeIsLittleEndian : Obligations.DecodeIsLittleEndian := by
  unfold Obligations.DecodeIsLittleEndian
  refine fun fb => ⟨fun hlen => ?_, decodeFrame_wrong_length⟩
  have hsamples : (samplesOf fb).length = 3694 := length_samplesOf_frame hlen
  exact ⟨_, decodeFrame_of_length hlen, hsamples, fun i hi => bytes_of_samplesOf_getElem? (by omega)⟩

theorem bytesOf_replicate (n : Nat) (x : Sample) :
    bytesOf (List.replicate n x) =
      (List.replicate n [BitVec.ofNat 8 (x.toNat % 256), BitVec.ofNat 8 (x.toNat / 256)]).flatten := by
  induction n with
  | zero => rfl
  | succ n ih => rw [List.replicate_succ, List.replicate_succ, List.flatten_cons, bytesOf, ih]; rfl

/-- Settles O43: the pairs are the inverse's value on the samples. -/
theorem decodeOfTheKnownPattern : Obligations.DecodeOfTheKnownPattern := by
  unfold Obligations.DecodeOfTheKnownPattern
  rw [decodeFrame_ok_iff_bytesOf, bytesOf_replicate]
  exact ⟨List.length_replicate, rfl⟩

/-! ## The operation -/

/-- R88 (d): the samples of a frame that begins with the marker begin with the marker's words. -/
theorem take_samplesOf_of_frameOk {f : List Byte} (h : FrameOk f) : (samplesOf f).take 3 = [157, 58, 71] := by
  obtain ⟨-, hmarker⟩ := h
  have hsamples : samplesOf f = [157, 58, 71] ++ samplesOf (f.drop 6) := by
    rw [← Config.markerWords_eq, ← samplesOf_bytesOf_append, ← markerBytes, ← hmarker, Config.markerBytesLen_eq,
      List.take_append_drop]
  rw [hsamples]
  exact List.take_left' rfl

/-- Settles O20: the four answers of `DECODE`. -/
theorem decodeMovesTheFrame : Obligations.DecodeMovesTheFrame := by
  unfold Obligations.DecodeMovesTheFrame
  refine fun s => ⟨fun hfrm => ?empty, fun f r hfrm hraw => ?busy, fun f hfrm hraw hlen => ?ok,
    fun f hfrm hraw hlen => ?precond, rfl⟩
  case empty => rw [exec_eq_sendOp, sendOp_decode_empty s hfrm]; rfl
  case busy => rw [exec_eq_sendOp, sendOp_decode_busy s hfrm hraw]; rfl
  case ok =>
    refine ⟨_, decodeFrame_of_length hlen, length_samplesOf_frame hlen, ?_, take_samplesOf_of_frameOk⟩
    rw [exec_eq_sendOp, sendOp_decode_ok s hfrm hraw hlen]
    rfl
  case precond => rw [exec_eq_sendOp, sendOp_decode_precond s hfrm hraw hlen, State.raiseError_eq]; rfl

end Sys2Proof.Machine
end

section
/-! PROOFS. The signal corrector (spec/42_corrector.md): the dark level and the offset (R98, R100), the closed form of every
corrected value (R102) and its range (R103), and the operations SETCFG (R104) and CORRECT (R105). -/

namespace Sys2Proof.Machine

section Frame

variable {raw : List Sample}

/-! ## The dark level and the offset -/

/-- R45: a sample is an unsigned 16-bit number. -/
theorem sampleInt_bounds (raw : List Sample) (j : Nat) : 0 ≤ sampleInt raw j ∧ sampleInt raw j ≤ 65535 := by
  unfold sampleInt
  omega

theorem map_getElem?_sampleInt (g : Int → Int) {j : Nat} (hj : j < raw.length) :
    (raw.map fun x => g (x.toNat : Int))[j]? = some (g (sampleInt raw j)) := by
  simp [sampleInt, hj]

/-- R98, with the two dark indices in numbers. -/
theorem dark4_eq (raw : List Sample) : dark4 raw = 2 * (sampleInt raw 10 + sampleInt raw 11) := by
  simp [dark4]

theorem dark4_bounds (raw : List Sample) : 0 ≤ dark4 raw ∧ dark4 raw ≤ 262140 := by
  have h10 := sampleInt_bounds raw 10
  have h11 := sampleInt_bounds raw 11
  rw [dark4_eq]
  omega

theorem inverted4_getElem? {j : Nat} (hj : j < raw.length) :
    (inverted4 raw)[j]? = some (dark4 raw - 4 * sampleInt raw j) :=
  map_getElem?_sampleInt (dark4 raw - 4 * ·) hj

/-- R100: the two sums of four values, where each value is known. -/
theorem sumAt_balIdx {xs : List Int} {g : Nat → Int} (h : ∀ j < 3694, xs[j]? = some (g j)) :
    sumAt xs [18, 20, 22, 24] = g 18 + g 20 + g 22 + g 24 ∧ sumAt xs [19, 21, 23, 25] = g 19 + g 21 + g 23 + g 25 := by
  constructor
  · simp [sumAt, h, add_assoc]
  · simp [sumAt, h, add_assoc]

/-- R100: in the difference of the two sums the dark level cancels, and every sample stands with the factor 4. -/
theorem sumAt_inverted4_sub (h : raw.length = 3694) :
    sumAt (inverted4 raw) [18, 20, 22, 24] - sumAt (inverted4 raw) [19, 21, 23, 25] =
      4 * ((sampleInt raw 19 + sampleInt raw 21 + sampleInt raw 23 + sampleInt raw 25) -
        (sampleInt raw 18 + sampleInt raw 20 + sampleInt raw 22 + sampleInt raw 24)) := by
  obtain ⟨heven, hodd⟩ := sumAt_balIdx (xs := inverted4 raw) fun j hj => inverted4_getElem? (h ▸ hj)
  rw [heven, hodd]
  ring

/-- R100: the offset in samples; the division by 4 is exact. -/
theorem offset4_inverted4 (h : raw.length = 3694) :
    offset4 (inverted4 raw) = (sampleInt raw 19 + sampleInt raw 21 + sampleInt raw 23 + sampleInt raw 25) -
      (sampleInt raw 18 + sampleInt raw 20 + sampleInt raw 22 + sampleInt raw 24) := by
  rw [offset4, Config.balEvenIdx_eq, Config.balOddIdx_eq, sumAt_inverted4_sub h]
  exact Int.mul_ediv_cancel_left _ (by decide)

/-- R100: the sum of four samples lies from 0 to 262140. -/
theorem sum_four_samples_bounds (raw : List Sample) (a b c d : Nat) :
    0 ≤ sampleInt raw a + sampleInt raw b + sampleInt raw c + sampleInt raw d ∧
    sampleInt raw a + sampleInt raw b + sampleInt raw c + sampleInt raw d ≤ 262140 := by
  have ha := sampleInt_bounds raw a
  have hb := sampleInt_bounds raw b
  have hc := sampleInt_bounds raw c
  have hd := sampleInt_bounds raw d
  omega

theorem offset4_bounds (h : raw.length = 3694) :
    -262140 ≤ offset4 (inverted4 raw) ∧ offset4 (inverted4 raw) ≤ 262140 := by
  have heven := sum_four_samples_bounds raw 18 20 22 24
  have hodd := sum_four_samples_bounds raw 19 21 23 25
  rw [offset4_inverted4 h]
  omega

/-! ## The corrected values in quarter units -/

/-- What is subtracted at index `j` by the balance step (R101, R102): the offset at even indices. -/
def balanceShare (raw : List Sample) (j : Nat) : Int := if j % 2 = 0 then offset4 (inverted4 raw) else 0

/-- Corrected value `j` in quarter units (R102), in every mode. -/
def quarterAt (raw : List Sample) (j : Nat) : (invert balanced : Bool) → Int
  | false, _ => 4 * sampleInt raw j
  | true, false => dark4 raw - 4 * sampleInt raw j
  | true, true => dark4 raw - 4 * sampleInt raw j - balanceShare raw j

/-- R102: `quarterAt` is the value of the model's corrector at every index of the frame. -/
theorem quarters_getElem? (h : raw.length = 3694) (invert balanced : Bool) {j : Nat} (hj : j < 3694) :
    (quarters raw invert balanced)[j]? = some (quarterAt raw j invert balanced) := by
  have hlen : j < raw.length := by omega
  match invert, balanced with
  | false, _ => exact map_getElem?_sampleInt (4 * ·) hlen
  | true, false => exact inverted4_getElem? hlen
  | true, true =>
    have hcount : j / 2 < 1847 := by omega
    rw [quarters, balance4, balanceBy_getElem?, inverted4_getElem? hlen, Option.map_some, quarterAt, balanceShare]
    by_cases heven : j % 2 = 0 <;> simp [heven, hcount]

theorem balanceShare_bounds (h : raw.length = 3694) (j : Nat) :
    -262140 ≤ balanceShare raw j ∧ balanceShare raw j ≤ 262140 := by
  unfold balanceShare
  split
  · exact offset4_bounds h
  · decide

/-- R103: the range of each mode. -/
theorem quarterAt_bounds (h : raw.length = 3694) (invert balanced : Bool) (j : Nat) :
    (-524280 ≤ quarterAt raw j invert balanced ∧ quarterAt raw j invert balanced ≤ 524280) ∧
    (invert = false → 0 ≤ quarterAt raw j invert balanced ∧ quarterAt raw j invert balanced ≤ 262140) ∧
    (balanced = false → -262140 ≤ quarterAt raw j invert balanced ∧ quarterAt raw j invert balanced ≤ 262140) := by
  have hsample := sampleInt_bounds raw j
  have hdark := dark4_bounds raw
  have hshare := balanceShare_bounds h j
  match invert, balanced with
  | false, _ => rw [quarterAt]; exact ⟨by omega, fun _ => by omega, fun _ => by omega⟩
  | true, false => rw [quarterAt]; exact ⟨by omega, nofun, fun _ => by omega⟩
  | true, true => rw [quarterAt]; exact ⟨by omega, nofun, nofun⟩

theorem exists_quarterAt_of_mem (h : raw.length = 3694) {invert balanced : Bool} {q : Int}
    (hq : q ∈ quarters raw invert balanced) : ∃ j, quarterAt raw j invert balanced = q := by
  obtain ⟨j, hget⟩ := List.mem_iff_getElem?.mp hq
  obtain ⟨hj, -⟩ := List.getElem?_eq_some_iff.mp hget
  rw [quarters_length, h] at hj
  exact ⟨j, Option.some.inj ((quarters_getElem? h invert balanced hj).symm.trans hget)⟩

/-! ## Narrowing to `s20` -/

/-- R96: an integer in the range of `s20` is the value of its 20 bits. -/
theorem toInt_ofInt_corr {q : Int} (hlow : -524288 ≤ q) (hhigh : q < 524288) : (BitVec.ofInt 20 q : Corr).toInt = q := by
  rw [BitVec.toInt_ofInt]
  exact Int.bmod_eq_of_le hlow hhigh

theorem toInt_ofInt_quarterAt (h : raw.length = 3694) (invert balanced : Bool) (j : Nat) :
    (BitVec.ofInt 20 (quarterAt raw j invert balanced) : Corr).toInt = quarterAt raw j invert balanced := by
  obtain ⟨⟨hlow, hhigh⟩, -⟩ := quarterAt_bounds h invert balanced j
  exact toInt_ofInt_corr (by omega) (by omega)

/-- R103: the values of the narrowed frame are the exact ones. -/
theorem map_toInt_ofInt_quarters (h : raw.length = 3694) (invert balanced : Bool) :
    ((quarters raw invert balanced).map (BitVec.ofInt 20)).map BitVec.toInt = quarters raw invert balanced := by
  rw [List.map_map]
  refine (List.map_congr_left fun q hq => ?_).trans (List.map_id _)
  obtain ⟨j, rfl⟩ := exists_quarterAt_of_mem h hq
  exact toInt_ofInt_quarterAt h invert balanced j

/-- R102: the narrowed frame holds `quarterAt` at every index. -/
theorem corrected_getElem? (h : raw.length = 3694) (invert balanced : Bool) {j : Nat} (hj : j < 3694) :
    ∃ c : Corr, ((quarters raw invert balanced).map (BitVec.ofInt 20))[j]? = some c ∧
      c.toInt = quarterAt raw j invert balanced :=
  ⟨_, by rw [List.getElem?_map, quarters_getElem? h invert balanced hj, Option.map_some],
    toInt_ofInt_quarterAt h invert balanced j⟩

/-- R102: after balance the two sums that R100 compares are equal. -/
theorem sumAt_balanced (h : raw.length = 3694) :
    sumAt (quarters raw true true) [18, 20, 22, 24] = sumAt (quarters raw true true) [19, 21, 23, 25] := by
  obtain ⟨heven, hodd⟩ := sumAt_balIdx (xs := quarters raw true true) fun j hj => quarters_getElem? h true true hj
  have hoffset := offset4_inverted4 h
  rw [heven, hodd]
  simp only [quarterAt, balanceShare, Nat.reduceMod, one_ne_zero, ↓reduceIte]
  omega

end Frame

/-! ## The laws of the corrector -/

/-- Settles O44: the difference of the two sums is 4 times a difference of samples. -/
theorem offsetsAreExact : Obligations.OffsetsAreExact := by
  unfold Obligations.OffsetsAreExact
  intro raw h
  obtain ⟨hdark0, hdark1⟩ := dark4_bounds raw
  obtain ⟨hoff0, hoff1⟩ := offset4_bounds h
  have heven : dark4 raw % 2 = 0 := by rw [dark4_eq]; exact Int.mul_emod_right _ _
  have hexact : 4 * offset4 (inverted4 raw) =
      sumAt (inverted4 raw) [18, 20, 22, 24] - sumAt (inverted4 raw) [19, 21, 23, 25] := by
    rw [sumAt_inverted4_sub h, offset4_inverted4 h]
  exact ⟨dark4_eq raw, hdark0, hdark1, heven, hexact, offset4_inverted4 h, hoff0, hoff1⟩

/-- Settles O45: `quarterAt`, mode by mode, with the dark level and the offset in samples. -/
theorem correctClosedForm : Obligations.CorrectClosedForm := by
  unfold Obligations.CorrectClosedForm
  intro raw h f a d
  have hdark : dark4 raw = 2 * a := dark4_eq raw
  have hoffset : offset4 (inverted4 raw) = d := offset4_inverted4 h
  refine ⟨fun b => ⟨_, correctFrame_of_length h false b, fun j hj => ?off⟩,
    ⟨_, correctFrame_of_length h true false, fun j hj => ?dark⟩,
    ⟨_, correctFrame_of_length h true true, fun j hj => ?both, ?sums⟩⟩
  case off => exact corrected_getElem? h false b hj
  case dark => exact hdark ▸ corrected_getElem? h true false hj
  case both =>
    obtain ⟨c, hc, hvalue⟩ := corrected_getElem? h true true hj
    refine ⟨c, hc, ?_⟩
    rw [hvalue, quarterAt, balanceShare, hdark, hoffset]
    rcases Nat.mod_two_eq_zero_or_one j with heven | hodd
    · simp [heven, f]
    · simp [hodd, f]
  case sums => rw [map_toInt_ofInt_quarters h]; exact sumAt_balanced h

/-- Settles O46: every value of the frame is some `quarterAt`, which is in range. -/
theorem correctedValuesFit : Obligations.CorrectedValuesFit := by
  unfold Obligations.CorrectedValuesFit
  intro raw invert balanced h
  obtain ⟨hdark0, hdark1⟩ := dark4_bounds raw
  have hvalue : ∀ c ∈ (quarters raw invert balanced).map (BitVec.ofInt 20),
      ∃ j, c.toInt = quarterAt raw j invert balanced := by
    intro c hc
    obtain ⟨q, hq, rfl⟩ := List.mem_map.mp hc
    obtain ⟨j, rfl⟩ := exists_quarterAt_of_mem h hq
    exact ⟨j, toInt_ofInt_quarterAt h invert balanced j⟩
  refine ⟨⟨hdark0, hdark1, offset4_bounds h⟩, _, correctFrame_of_length h invert balanced,
    map_toInt_ofInt_quarters h invert balanced, fun c hc => ?all, fun hoff c hc => ?off, fun hplain c hc => ?plain⟩
  all_goals
    obtain ⟨j, hj⟩ := hvalue c hc
    obtain ⟨hall, hoffRange, hplainRange⟩ := quarterAt_bounds h invert balanced j
    rw [hj]
  case all => exact hall
  case off => exact hoffRange hoff
  case plain => exact hplainRange hplain

/-! ## The operations -/

theorem toNat_cfgOf (invert balanced : Bool) : (cfgOf invert balanced).toNat = 2 * balanced.toNat + invert.toNat := by
  revert invert balanced; decide

/-- Settles O21: `SETCFG` writes `cfgOf`, and a word with a reserved bit is one of R55's illegal words. -/
theorem setcfgWritesTheModes : Obligations.SetcfgWritesTheModes := by
  unfold Obligations.SetcfgWritesTheModes
  refine ⟨fun i b s => ⟨⟨(s.setCfg (cfgOf i b)).respond .ok, ?_, rfl, toNat_cfgOf i b, cfgInvert_cfgOf i b,
    cfgBalanced_cfgOf i b⟩, toNat_encode_setcfg i b⟩, fun tw s t hop hbits ht => ?_⟩
  · rw [exec_eq_sendOp, sendOp_setcfg]
  · obtain ⟨e, he⟩ := (decodeWord_error_iff_clauses tw).mpr (.inr (.inr (.inr ⟨hop, hbits⟩)))
    rw [eq_send_of_answer s ht, send_of_error s he]
    exact ⟨State.raiseError_rsp s _ _, State.raiseError_cfg s _ _⟩

/-- Settles O22: the four answers of `CORRECT`. -/
theorem correctMovesTheFrame : Obligations.CorrectMovesTheFrame := by
  unfold Obligations.CorrectMovesTheFrame
  refine fun s => ⟨fun hraw => ?empty, fun r e hraw hout => ?busy, fun r hraw hout hlen => ?ok,
    fun r hraw hout hlen => ?precond, rfl⟩
  case empty => rw [exec_eq_sendOp, sendOp_correct_empty s hraw]; rfl
  case busy => rw [exec_eq_sendOp, sendOp_correct_busy s hraw hout]; rfl
  case ok =>
    have hcor := correctFrame_of_length hlen (s.cfg.getLsbD 0) (s.cfg.getLsbD 1)
    refine ⟨_, hcor, correctFrame_length hcor, ?_, fun hoff => ?_⟩
    · rw [exec_eq_sendOp, sendOp_correct_ok s hraw hout hlen]
      rfl
    · rw [hoff, map_toInt_ofInt_quarters hlen]
      rfl
  case precond => rw [exec_eq_sendOp, sendOp_correct_precond s hraw hout hlen, State.raiseError_eq]; rfl

end Sys2Proof.Machine
end

section
/-! PROOFS. Output and session control (spec/43_control.md): which operation adds to `OUTQ`, and the operations EMIT (R116)
and CLEAR (R117) with the reset of R141. -/

namespace Sys2Proof.Machine

/-! ## Who hands over -/

/-- A stage whose commit hands nothing over leaves `OUTQ`: its other three answers change at most `ERR` and the response. -/
theorem State.stage_outq {α β γ : Type} (s : State) (source : Option α) (destination : Option β)
    (f : α → Except ErrCode γ) {commit : γ → State} (hcommit : ∀ c, (commit c).outq = s.outq) :
    (s.stage source destination f commit).outq = s.outq := by
  rcases State.stage_cases s source destination f commit with
    ⟨-, h⟩ | ⟨_, _, -, -, h⟩ | ⟨_, e, -, -, -, h⟩ | ⟨_, c, -, -, -, h⟩
  · rw [h, State.respond_outq]
  · rw [h, State.respond_outq]
  · rw [h, State.raiseError_outq]
  · rw [h, State.respond_outq, hcommit]

/-- R18, R116: no operation but `EMIT` changes `OUTQ`. -/
theorem sendOp_outq (s : State) {i : Instr} (h : i ≠ .emit) : (s.sendOp i).outq = s.outq := by
  cases i with
  | push b => rw [sendOp_push]; split <;> rfl
  | extract => rw [sendOp_extract]; split <;> [rfl; split <;> rfl]
  | trim => rw [sendOp_trim]; split <;> rfl
  | decode => exact State.stage_outq s s.frm s.raw decodeFrame fun _ => rfl
  | setcfg invert balanced => rw [sendOp_setcfg]; rfl
  | correct => exact State.stage_outq s s.raw s.out _ fun _ => rfl
  | emit => exact absurd rfl h
  | clear => rw [sendOp_clear]; rfl

/-- A word that changes `OUTQ` is the word of `EMIT`; an illegal word changes at most `ERR` and the response. -/
theorem decodeWord_eq_emit_of_outq_ne {s : State} {tw : TWord} (h : (s.send tw).outq ≠ s.outq) :
    decodeWord tw = .ok .emit := by
  rcases send_cases s tw with ⟨e, -, hs⟩ | ⟨i, hi, hs⟩
  · exact absurd (by rw [hs, State.raiseError_outq]) h
  · rw [hs] at h
    have hemit : i = .emit := not_imp_comm.mp (sendOp_outq s) h
    rw [hi, hemit]

/-! ## The operations -/

/-- Settles O23: the two answers of `EMIT`, and that no other word changes `OUTQ`. -/
theorem emitHandsOver : Obligations.EmitHandsOver := by
  unfold Obligations.EmitHandsOver
  refine fun s => ⟨fun hout => ?empty, fun e hout => ?ok, fun tw t ht hne => ?only, rfl⟩
  case empty => rw [exec_eq_sendOp, sendOp_emit_empty s hout]; rfl
  case ok => rw [exec_eq_sendOp, sendOp_emit_ok s hout]; rfl
  case only =>
    rw [eq_send_of_answer s ht] at hne
    exact decodeWord_eq_emit_of_outq_ne hne

/-- Settles O24: `CLEAR` as its four updates, and the elements after a reset. -/
theorem clearStartsASession : Obligations.ClearStartsASession := by
  unfold Obligations.ClearStartsASession
  refine ⟨fun s => ?clear, fun s => ?reset, rfl⟩
  case clear => rw [exec_eq_sendOp, sendOp_clear]; rfl
  case reset =>
    exact ⟨s.applyReset_acc, s.applyReset_frm, s.applyReset_raw, s.applyReset_out, s.applyReset_cfg, s.applyReset_err,
      s.applyReset_outq⟩

end Sys2Proof.Machine
end

section
/-! PROOFS. Errors (spec/60_exceptions.md): which words are answered by an error, and that an error is precise (R127, R133). -/

namespace Sys2Proof.Machine

/-! ## Who answers with an error -/

/-- The last word was answered by one of the two error responses (R53, R133). -/
def State.AnsweredError (t : State) : Prop := t.rsp = some .illegal ∨ t.rsp = some .precond

@[simp] theorem State.answeredError_respond_iff (s : State) (r : Resp) :
    (s.respond r).AnsweredError ↔ r = .illegal ∨ r = .precond := by
  simp [State.AnsweredError]

/-- R127, R130: of a stage's four answers the only error is the violation of its function, whatever the commit does. -/
theorem State.stage_eq_raiseError {α β γ : Type} {s : State} {source : Option α} {destination : Option β}
    {f : α → Except ErrCode γ} {commit : γ → State} (h : (s.stage source destination f commit).AnsweredError) :
    ∃ e, s.stage source destination f commit = s.raiseError e .precond := by
  rcases State.stage_cases s source destination f commit with
    ⟨-, hs⟩ | ⟨_, _, -, -, hs⟩ | ⟨_, e, -, -, -, hs⟩ | ⟨_, _, -, -, -, hs⟩
  case inr.inr.inl => exact ⟨e, hs⟩
  all_goals rw [hs] at h; simp at h

/-- R127: an operation that answers with an error is one of the two stages and has only raised it; the other six never
answer with one. -/
theorem sendOp_eq_raiseError {s : State} {i : Instr} (h : (s.sendOp i).AnsweredError) :
    ∃ e, s.sendOp i = s.raiseError e .precond := by
  cases i with
  | decode => exact State.stage_eq_raiseError h
  | correct => exact State.stage_eq_raiseError h
  | push b => rw [sendOp_push] at h; split at h <;> simp at h
  | extract => rw [sendOp_extract] at h; split at h <;> [simp at h; split at h <;> simp at h]
  | trim => rw [sendOp_trim] at h; split at h <;> simp at h
  | setcfg invert balanced => rw [sendOp_setcfg] at h; simp at h
  | emit => rw [sendOp_emit] at h; split at h <;> simp at h
  | clear => rw [sendOp_clear] at h; simp at h

/-- R55, R127: a word answered by an error, illegal or not, has raised it and done nothing else. -/
theorem send_eq_raiseError {s : State} {tw : TWord} (h : (s.send tw).AnsweredError) :
    ∃ e r, s.send tw = s.raiseError e r := by
  rcases send_cases s tw with ⟨_, -, hs⟩ | ⟨i, -, hs⟩
  · exact ⟨.illegalTw, .illegal, hs⟩
  · rw [hs] at h ⊢
    obtain ⟨e, he⟩ := sendOp_eq_raiseError h
    exact ⟨e, .precond, he⟩

/-! ## Precision -/

/-- Settles O12: such a word has only raised an error, and `raiseError_eq` says what that changes. -/
theorem errorsArePrecise : Obligations.ErrorsArePrecise := by
  unfold Obligations.ErrorsArePrecise
  intro tw s t ht hrsp
  rw [eq_send_of_answer s ht] at hrsp ⊢
  obtain ⟨e, r, hsend⟩ := send_eq_raiseError hrsp
  refine ⟨e, ?_⟩
  rw [hsend, State.raiseError_rsp]
  exact State.raiseError_eq s e r

end Sys2Proof.Machine
end

section
/-! PROOFS. What an operation and a word can do, each said once (spec/30_encoding.md R53, R55; spec/60_exceptions.md R130), and
what follows for every element of the state: the responses, the writers, the flags, the accumulator. -/

namespace Sys2Proof.Machine

/-! ## The outcomes of an operation -/

/-- Where an operation is answered `OK`: its condition, and the state it leaves, before the response (R69, R70, R73, R88, R104,
R105, R116, R117). -/
inductive State.Completes (s : State) : Instr → State → Prop
  | push (b : Byte) (hroom : atCapacity s.acc.length = false) : s.Completes (.push b) (s.setAcc (s.acc.append b))
  | extract {f : List Byte} {r : Memory} (hfrm : s.frm = none) (hframe : tryExtractFrame s.acc = some (f, r)) :
      s.Completes .extract ((s.setFrm (some f)).setAcc r)
  | trim (htrim : trimPoint s.acc ≠ 0) : s.Completes .trim (s.setAcc (s.acc.dropFront (trimPoint s.acc)))
  | decode {f : List Byte} {raw : List Sample} (hfrm : s.frm = some f) (hraw : s.raw = none)
      (hvalue : decodeFrame f = .ok raw) : s.Completes .decode ((s.setRaw (some raw)).setFrm none)
  | setcfg (invert balanced : Bool) : s.Completes (.setcfg invert balanced) (s.setCfg (cfgOf invert balanced))
  | correct {raw : List Sample} {cor : List Corr} (hraw : s.raw = some raw) (hout : s.out = none)
      (hvalue : correctFrame raw (cfgInvert s.cfg) (cfgBalanced s.cfg) = .ok cor) :
      s.Completes .correct ((s.setOut (some ⟨raw, cor⟩)).setRaw none)
  | emit {e : Event} (hout : s.out = some e) : s.Completes .emit ((s.handOver e).setOut none)
  | clear : s.Completes .clear ((((s.setAcc []).setFrm none).setRaw none).setOut none)

/-- Where an operation violates the precondition of its function (R127). -/
inductive State.Violates (s : State) : Instr → ErrCode → Prop
  | decode {f : List Byte} {e : ErrCode} (hfrm : s.frm = some f) (hvalue : decodeFrame f = .error e) : s.Violates .decode e
  | correct {raw : List Sample} {e : ErrCode} (hraw : s.raw = some raw)
      (hvalue : correctFrame raw (cfgInvert s.cfg) (cfgBalanced s.cfg) = .error e) : s.Violates .correct e

/-- The responses by which an operation says that it did nothing (R53). -/
def idleResponses : Op → List Resp
  | .push => [.full]
  | .extract => [.none, .busy]
  | .trim => [.none]
  | .decode => [.busy, .empty]
  | .setcfg => []
  | .correct => [.busy, .empty]
  | .emit => [.empty]
  | .clear => []

/-- R130: an operation completes, says that it did nothing, or raises the violation of its function. -/
theorem sendOp_cases (s : State) (i : Instr) :
    (∃ t, s.Completes i t ∧ s.sendOp i = t.respond .ok) ∨
    (∃ r ∈ idleResponses i.op, s.sendOp i = s.respond r) ∨
    (∃ e, s.Violates i e ∧ s.sendOp i = s.raiseError e .precond) := by
  cases i with
  | push b =>
    cases hroom : atCapacity s.acc.length with
    | true => exact .inr (.inl ⟨_, List.mem_singleton_self _, sendOp_push_full s hroom⟩)
    | false => exact .inl ⟨_, .push b hroom, sendOp_push_ok s hroom⟩
  | extract =>
    cases hfrm : s.frm with
    | some f => exact .inr (.inl ⟨_, by decide, sendOp_extract_busy s hfrm⟩)
    | none =>
      cases hframe : tryExtractFrame s.acc with
      | none => exact .inr (.inl ⟨_, by decide, sendOp_extract_none s hfrm hframe⟩)
      | some fr => exact .inl ⟨_, .extract hfrm hframe, sendOp_extract_ok s hfrm hframe⟩
  | trim =>
    by_cases htrim : trimPoint s.acc = 0
    · exact .inr (.inl ⟨_, by decide, sendOp_trim_none s htrim⟩)
    · exact .inl ⟨_, .trim htrim, sendOp_trim_ok s htrim⟩
  | decode =>
    rcases State.stage_cases s s.frm s.raw decodeFrame _ with
      ⟨-, h⟩ | ⟨_, _, -, -, h⟩ | ⟨f, e, hfrm, -, hvalue, h⟩ | ⟨f, raw, hfrm, hraw, hvalue, h⟩
    · exact .inr (.inl ⟨_, by decide, h⟩)
    · exact .inr (.inl ⟨_, by decide, h⟩)
    · exact .inr (.inr ⟨e, .decode hfrm hvalue, h⟩)
    · exact .inl ⟨_, .decode hfrm hraw hvalue, h⟩
  | setcfg invert balanced => exact .inl ⟨_, .setcfg invert balanced, sendOp_setcfg s invert balanced⟩
  | correct =>
    cases hraw : s.raw with
    | none => exact .inr (.inl ⟨_, by decide, sendOp_correct_empty s hraw⟩)
    | some raw =>
      cases hout : s.out with
      | some e => exact .inr (.inl ⟨_, by decide, sendOp_correct_busy s hraw hout⟩)
      | none =>
        by_cases hlen : raw.length = 3694
        · exact .inl ⟨_, .correct hraw hout (correctFrame_of_length hlen _ _), sendOp_correct_ok s hraw hout hlen⟩
        · exact .inr (.inr ⟨_, .correct hraw (correctFrame_wrong_length hlen _ _), sendOp_correct_precond s hraw hout hlen⟩)
  | emit =>
    cases hout : s.out with
    | none => exact .inr (.inl ⟨_, by decide, sendOp_emit_empty s hout⟩)
    | some e => exact .inl ⟨_, .emit hout, sendOp_emit_ok s hout⟩
  | clear => exact .inl ⟨_, .clear, sendOp_clear s⟩

/-- The elements that only `OK` changes (R53). -/
def State.SameData (s t : State) : Prop :=
  t.acc = s.acc ∧ t.frm = s.frm ∧ t.raw = s.raw ∧ t.out = s.out ∧ t.cfg = s.cfg ∧ t.outq = s.outq

theorem State.sameData_respond (s : State) (r : Resp) : s.SameData (s.respond r) := ⟨rfl, rfl, rfl, rfl, rfl, rfl⟩

theorem State.sameData_raiseError (s : State) (e : ErrCode) (r : Resp) : s.SameData (s.raiseError e r) :=
  ⟨s.raiseError_acc e r, s.raiseError_frm e r, s.raiseError_raw e r, s.raiseError_out e r, s.raiseError_cfg e r,
    s.raiseError_outq e r⟩

theorem ok_notMem_idleResponses (o : Op) : Resp.ok ∉ idleResponses o := by
  cases o <;> decide

/-- R53, R55: the outcomes of a word are those of its operation, or it is illegal. -/
theorem send_outcomes (s : State) (tw : TWord) :
    (∃ i t, decodeWord tw = .ok i ∧ s.Completes i t ∧ s.send tw = t.respond .ok) ∨
    (∃ i, ∃ r ∈ idleResponses i.op, decodeWord tw = .ok i ∧ s.send tw = s.respond r) ∨
    (∃ i e, decodeWord tw = .ok i ∧ s.Violates i e ∧ s.send tw = s.raiseError e .precond) ∨
    (∃ x, decodeWord tw = .error x ∧ s.send tw = s.raiseError .illegalTw .illegal) := by
  rcases send_cases s tw with ⟨x, hx, h⟩ | ⟨i, hi, h⟩
  · exact .inr (.inr (.inr ⟨x, hx, h⟩))
  · rw [h]
    rcases sendOp_cases s i with ⟨t, hc, h⟩ | ⟨r, hr, h⟩ | ⟨e, he, h⟩
    · exact .inl ⟨i, t, hi, hc, h⟩
    · exact .inr (.inl ⟨i, r, hr, hi, h⟩)
    · exact .inr (.inr (.inl ⟨i, e, hi, he, h⟩))

/-- R53: a word completes its operation, or it leaves the data path as it was and its response is not `OK`. -/
theorem send_completes_or_sameData (s : State) (tw : TWord) :
    (∃ i t, decodeWord tw = .ok i ∧ s.Completes i t ∧ s.send tw = t.respond .ok) ∨
    (s.SameData (s.send tw) ∧ (s.send tw).rsp ≠ some .ok) := by
  rcases send_outcomes s tw with h | ⟨i, r, hr, -, h⟩ | ⟨_, e, -, -, h⟩ | ⟨_, -, h⟩
  · exact .inl h
  · refine .inr (h ▸ ⟨s.sameData_respond r, fun hok => ?_⟩)
    exact ok_notMem_idleResponses i.op (Option.some.inj hok ▸ hr)
  · exact .inr (h ▸ ⟨s.sameData_raiseError e _, by simp⟩)
  · exact .inr (h ▸ ⟨s.sameData_raiseError _ _, by simp⟩)

/-! ## What a completed operation leaves -/

theorem State.Completes.err {s t : State} {i : Instr} (h : s.Completes i t) : t.err = s.err := by
  cases h <;> rfl

theorem State.Completes.port {s t : State} {i : Instr} (h : s.Completes i t) : t.port = s.port := by
  cases h <;> rfl

/-! ## What a word does to each element -/

/-- R10, R34: the words that change `ACC`, and what each does to it. -/
theorem send_acc (s : State) (tw : TWord) :
    (∃ b, decodeWord tw = .ok (.push b) ∧ (s.send tw).acc = s.acc ++ [b]) ∨
    (∃ f, decodeWord tw = .ok .extract ∧ tryExtractFrame s.acc = some (f, (s.send tw).acc)) ∨
    (decodeWord tw = .ok .trim ∧ (s.send tw).acc = s.acc.drop (trimPoint s.acc)) ∨
    (decodeWord tw = .ok .clear ∧ (s.send tw).acc = []) ∨
    (s.send tw).acc = s.acc := by
  rcases send_completes_or_sameData s tw with ⟨i, t, hi, hc, h⟩ | ⟨⟨hacc, -⟩, -⟩
  · rw [h, State.respond_acc]
    cases hc with
    | push b => exact .inl ⟨b, hi, rfl⟩
    | extract _ hframe => exact .inr (.inl ⟨_, hi, hframe⟩)
    | trim => exact .inr (.inr (.inl ⟨hi, rfl⟩))
    | clear => exact .inr (.inr (.inr (.inl ⟨hi, rfl⟩)))
    | decode | setcfg | correct | emit => exact .inr (.inr (.inr (.inr rfl)))
  · exact .inr (.inr (.inr (.inr hacc)))

/-- R11, R15: the words that fill and empty `FRM`. -/
theorem send_frm (s : State) (tw : TWord) :
    (isOp .extract tw ∧ s.frm = none ∧ (s.send tw).frm.isSome) ∨
    ((isOp .decode tw ∨ isOp .clear tw) ∧ (s.send tw).frm = none) ∨ (s.send tw).frm = s.frm := by
  rcases send_completes_or_sameData s tw with ⟨i, t, hi, hc, h⟩ | ⟨⟨-, hfrm, -⟩, -⟩
  · rw [h, State.respond_frm]
    cases hc with
    | extract hfrm => exact .inl ⟨isOp_of_ok hi _, hfrm, rfl⟩
    | decode => exact .inr (.inl ⟨.inl (isOp_of_ok hi _), rfl⟩)
    | clear => exact .inr (.inl ⟨.inr (isOp_of_ok hi _), rfl⟩)
    | push | trim | setcfg | correct | emit => exact .inr (.inr rfl)
  · exact .inr (.inr hfrm)

/-- R12, R15: the words that fill and empty `RAW`. -/
theorem send_raw (s : State) (tw : TWord) :
    (isOp .decode tw ∧ s.raw = none ∧ (s.send tw).raw.isSome) ∨
    ((isOp .correct tw ∨ isOp .clear tw) ∧ (s.send tw).raw = none) ∨ (s.send tw).raw = s.raw := by
  rcases send_completes_or_sameData s tw with ⟨i, t, hi, hc, h⟩ | ⟨⟨-, -, hraw, -⟩, -⟩
  · rw [h, State.respond_raw]
    cases hc with
    | decode _ hraw => exact .inl ⟨isOp_of_ok hi _, hraw, rfl⟩
    | correct => exact .inr (.inl ⟨.inl (isOp_of_ok hi _), rfl⟩)
    | clear => exact .inr (.inl ⟨.inr (isOp_of_ok hi _), rfl⟩)
    | push | extract | trim | setcfg | emit => exact .inr (.inr rfl)
  · exact .inr (.inr hraw)

/-- R13, R15: the words that fill and empty `OUT`. -/
theorem send_out (s : State) (tw : TWord) :
    (isOp .correct tw ∧ s.out = none ∧ (s.send tw).out.isSome) ∨
    ((isOp .emit tw ∨ isOp .clear tw) ∧ (s.send tw).out = none) ∨ (s.send tw).out = s.out := by
  rcases send_completes_or_sameData s tw with ⟨i, t, hi, hc, h⟩ | ⟨⟨-, -, -, hout, -⟩, -⟩
  · rw [h, State.respond_out]
    cases hc with
    | correct _ hout => exact .inl ⟨isOp_of_ok hi _, hout, rfl⟩
    | emit => exact .inr (.inl ⟨.inl (isOp_of_ok hi _), rfl⟩)
    | clear => exact .inr (.inl ⟨.inr (isOp_of_ok hi _), rfl⟩)
    | push | extract | trim | decode | setcfg => exact .inr (.inr rfl)
  · exact .inr (.inr hout)

/-- R16, R22: the one writer of `CFG`. -/
theorem send_cfg (s : State) (tw : TWord) : isOp .setcfg tw ∨ (s.send tw).cfg = s.cfg := by
  rcases send_completes_or_sameData s tw with ⟨i, t, hi, hc, h⟩ | ⟨⟨-, -, -, -, hcfg, -⟩, -⟩
  · rw [h, State.respond_cfg]
    cases hc with
    | setcfg => exact .inl (isOp_of_ok hi _)
    | push | extract | trim | decode | correct | emit | clear => exact .inr rfl
  · exact .inr hcfg

/-- R18, R22: the one writer of `OUTQ`. -/
theorem send_outq (s : State) (tw : TWord) : isOp .emit tw ∨ (s.send tw).outq = s.outq :=
  or_iff_not_imp_right.mpr fun hne => isOp_of_ok (decodeWord_eq_emit_of_outq_ne hne) _

theorem raiseError_err_cases (s : State) (e : ErrCode) {r : Resp} (hr : r = .illegal ∨ r = .precond) :
    (s.raiseError e r).err = s.err ∨
    (s.err = 0 ∧ (s.raiseError e r).AnsweredError ∧ ∃ e' : ErrCode, (s.raiseError e r).err = e'.code) := by
  rw [State.raiseError_err]
  split
  case isTrue hzero => exact .inr ⟨hzero, (s.recordError e).answeredError_respond_iff r |>.mpr hr, e, rfl⟩
  case isFalse => exact .inl rfl

/-- R17, R134: the only record in `ERR` is that of an error, when `ERR` was 0. -/
theorem send_err (s : State) (tw : TWord) :
    (s.send tw).err = s.err ∨
    (s.err = 0 ∧ (s.send tw).AnsweredError ∧ ∃ e : ErrCode, (s.send tw).err = e.code) := by
  rcases send_outcomes s tw with ⟨_, t, -, hc, h⟩ | ⟨_, r, -, -, h⟩ | ⟨_, e, -, -, h⟩ | ⟨_, -, h⟩
  · exact .inl (by rw [h, State.respond_err, hc.err])
  · exact .inl (by rw [h, State.respond_err])
  · exact h ▸ raiseError_err_cases s e (.inr rfl)
  · exact h ▸ raiseError_err_cases s _ (.inl rfl)

/-- No word changes what the master still sends (log 3). -/
theorem send_port (s : State) (tw : TWord) : (s.send tw).port = s.port := by
  rcases send_outcomes s tw with ⟨_, t, -, hc, h⟩ | ⟨_, r, -, -, h⟩ | ⟨_, e, -, -, h⟩ | ⟨_, -, h⟩
  · rw [h, State.respond_port, hc.port]
  · rw [h, State.respond_port]
  · rw [h, State.raiseError_port]
  · rw [h, State.raiseError_port]

/-! ## The statements -/

/-- Settles O4: the outcomes of a word, each with its row of R53's table. -/
theorem everyWordGetsOneResponse : Obligations.EveryWordGetsOneResponse := by
  unfold Obligations.EveryWordGetsOneResponse
  refine ⟨by decide, fun tw s => ⟨s.send tw, ?_⟩⟩
  rcases send_outcomes s tw with ⟨i, t, hi, hc, h⟩ | ⟨i, r, hr, hi, h⟩ | ⟨i, e, hi, he, h⟩ | ⟨x, hx, h⟩
  case inl =>
    refine ⟨.ok, answer_eq_next s tw, by rw [h, State.respond_rsp], ?_, absurd rfl,
      fun _ => by rw [h, State.respond_err, hc.err]⟩
    rw [hi]
    cases hc with
    | push | extract | trim | decode | correct | emit => exact List.mem_cons_self
    | setcfg | clear => rfl
  case inr.inl =>
    refine ⟨r, answer_eq_next s tw, by rw [h, State.respond_rsp], ?_, fun _ => h ▸ s.sameData_respond r,
      fun _ => by rw [h, State.respond_err]⟩
    rw [hi]
    cases i with
    | push | extract | trim | emit => exact List.mem_cons_of_mem _ hr
    | decode | correct => exact List.mem_cons_of_mem _ (List.mem_append_left [Resp.precond] hr)
    | setcfg | clear => nomatch hr
  case inr.inr.inl =>
    refine ⟨.precond, answer_eq_next s tw, by rw [h, State.raiseError_rsp], ?_,
      fun _ => h ▸ s.sameData_raiseError e _, fun hr => absurd (by decide) hr⟩
    rw [hi]
    cases he with
    | decode | correct => decide
  case inr.inr.inr =>
    refine ⟨.illegal, answer_eq_next s tw, by rw [h, State.raiseError_rsp], by rw [hx],
      fun _ => h ▸ s.sameData_raiseError _ _, fun hr => absurd (by decide) hr⟩

/-- Settles O26, element by element. -/
theorem writersOfEachElement : Obligations.WritersOfEachElement := by
  unfold Obligations.WritersOfEachElement
  intro tw s t ht
  obtain rfl := eq_send_of_answer s ht
  refine ⟨fun hne => ?acc, fun hne => ?frm, fun hne => ?raw, fun hne => ?out, (send_cfg s tw).resolve_right,
    (send_outq s tw).resolve_right, fun hne => ?err⟩
  case acc =>
    rcases send_acc s tw with ⟨_, hd, -⟩ | ⟨_, hd, -⟩ | ⟨hd, -⟩ | ⟨hd, -⟩ | hsame
    · exact .inl (isOp_of_ok hd _)
    · exact .inr (.inl (isOp_of_ok hd _))
    · exact .inr (.inr (.inl (isOp_of_ok hd _)))
    · exact .inr (.inr (.inr (isOp_of_ok hd _)))
    · exact absurd hsame hne
  case frm =>
    rcases send_frm s tw with ⟨hfill, -⟩ | ⟨hempty, -⟩ | hsame
    exacts [.inl hfill, .inr hempty, absurd hsame hne]
  case raw =>
    rcases send_raw s tw with ⟨hfill, -⟩ | ⟨hempty, -⟩ | hsame
    exacts [.inl hfill, .inr hempty, absurd hsame hne]
  case out =>
    rcases send_out s tw with ⟨hfill, -⟩ | ⟨hempty, -⟩ | hsame
    exacts [.inl hfill, .inr hempty, absurd hsame hne]
  case err =>
    obtain ⟨hzero, herror, -⟩ := (send_err s tw).resolve_left hne
    exact ⟨hzero, herror⟩

/-- Settles O25: the writers of `ACC` are the four operations left out. -/
theorem operationsOffMemoryLeaveIt : Obligations.OperationsOffMemoryLeaveIt := by
  unfold Obligations.OperationsOffMemoryLeaveIt
  intro tw s t ht hoff
  obtain ⟨hwriters, -⟩ := writersOfEachElement tw s t ht
  have hacc : t.acc = s.acc := not_imp_comm.mp hwriters hoff
  exact ⟨fun a => by rw [hacc], hacc, eq_send_of_answer s ht ▸ send_port s tw⟩

/-- R15: the flag of a register that is filled from empty, emptied, or kept. -/
theorem flag_of_register {α : Type} {x y : Option α} {fills empties : Prop}
    (h : (fills ∧ x = none ∧ y.isSome) ∨ (empties ∧ y = none) ∨ y = x) :
    (x.isSome = false → y.isSome = true → fills) ∧ (x.isSome = true → y.isSome = false → empties) := by
  rcases h with ⟨hfill, rfl, -⟩ | ⟨hempty, rfl⟩ | rfl
  · exact ⟨fun _ _ => hfill, nofun⟩
  · exact ⟨fun _ => nofun, fun _ _ => hempty⟩
  · exact ⟨fun h h' => by simp [h] at h', fun h h' => by simp [h] at h'⟩

/-- Settles O27: the flag of each register follows the words that fill and empty it. -/
theorem flagsFollowTheRegisters : Obligations.FlagsFollowTheRegisters := by
  unfold Obligations.FlagsFollowTheRegisters
  intro tw s t ht
  obtain rfl := eq_send_of_answer s ht
  obtain ⟨hfrmSet, hfrmClear⟩ := flag_of_register (send_frm s tw)
  obtain ⟨hrawSet, hrawClear⟩ := flag_of_register (send_raw s tw)
  obtain ⟨houtSet, houtClear⟩ := flag_of_register (send_out s tw)
  exact ⟨hfrmSet, hfrmClear, hrawSet, hrawClear, houtSet, houtClear⟩

end Sys2Proof.Machine
end

section
/-! PROOFS. Trimming (spec/40_synchronizer.md R72, R73, R77) and a frame behind garbage (R76): what cutting bytes off the front
does to matches and to extraction; PUSH below one frame (R69) and the changes of the accumulator (R10, R34). -/

namespace Sys2Proof.Machine

/-! ## Cutting an even number of bytes off the front -/

theorem Memory.readWord_drop (u : Memory) (k a : Nat) : Memory.readWord (u.drop k) a = u.readWord (k + a) := by
  have hread := Memory.read_dropFront u k
  rw [Memory.dropFront] at hread
  rw [Memory.readWord, Memory.readWord, hread, hread, add_assoc]

/-- R66: a match moves with the bytes in front of it. -/
theorem matchAt_drop {u : Memory} {k : Nat} (heven : k % 2 = 0) (hk : k ≤ u.length) (p : Nat) :
    matchAt (u.drop k) p = matchAt u (k + p) := by
  rw [Bool.eq_iff_iff, matchAt_iff, matchAt_iff]
  simp only [Memory.readWord_drop, List.length_drop, add_assoc]
  have hparity : p % 2 = 0 ↔ (k + p) % 2 = 0 := by omega
  have hwindow : p + 6 ≤ u.length - k ↔ k + (p + 6) ≤ u.length := by omega
  rw [hparity, hwindow]

/-- R67: where no match is cut off, the first match moves to the front by what is cut off. -/
theorem findMarker_drop {u : Memory} {k : Nat} (heven : k % 2 = 0) (hk : k ≤ u.length)
    (hno : ∀ q < k, matchAt u q = false) (p : Nat) : findMarker (u.drop k) = some p ↔ findMarker u = some (k + p) := by
  rw [findMarker_eq_some_iff, findMarker_eq_some_iff, matchAt_drop heven hk]
  simp only [matchAt_drop heven hk]
  refine and_congr_right fun _ => ⟨fun h q hq => ?_, fun h q hq => h (k + q) (by omega)⟩
  rcases Nat.lt_or_ge q k with hlt | hge
  · exact hno q hlt
  · have hbehind := h (q - k) (by omega)
    rwa [Nat.add_sub_cancel' hge] at hbehind

/-- R68, R77: where no match is cut off, extraction gives the same frame and the same remainder. -/
theorem tryExtractFrame_drop {u : Memory} {k : Nat} (heven : k % 2 = 0) (hk : k ≤ u.length)
    (hno : ∀ q < k, matchAt u q = false) : tryExtractFrame (u.drop k) = tryExtractFrame u := by
  refine Option.ext fun ⟨f, r⟩ => ?_
  rw [tryExtractFrame_eq_some_iff, tryExtractFrame_eq_some_iff]
  simp only [findMarker_drop heven hk hno, List.drop_drop, List.length_drop]
  constructor
  · rintro ⟨p, hp, hlen, rfl, rfl⟩
    exact ⟨k + p, hp, by omega, rfl, by rw [add_assoc]⟩
  · rintro ⟨p, hp, hlen, rfl, rfl⟩
    have hkp : k ≤ p := by
      obtain ⟨hmatch, -⟩ := matchAt_of_findMarker hp
      by_contra hlt
      rw [hno p (by omega)] at hmatch
      nomatch hmatch
    obtain ⟨d, rfl⟩ := Nat.exists_eq_add_of_le hkp
    exact ⟨d, hp, by omega, rfl, by rw [add_assoc]⟩

/-- R74: what extraction repeats is fixed by its first turn. -/
theorem frames_congr {u v : Memory} (h : tryExtractFrame u = tryExtractFrame v) : frames u = frames v := by
  cases hv : tryExtractFrame v with
  | none => rw [(frames_rest_of_none (h.trans hv)).1, (frames_rest_of_none hv).1]
  | some fr => rw [(frames_rest_of_some (h.trans hv)).1, (frames_rest_of_some hv).1]

/-! ## The trim point -/

/-- Settles O32: the first match, or the closed form of what a sequence without one can lose. -/
theorem trimPointValue : Obligations.TrimPointValue := by
  unfold Obligations.TrimPointValue
  intro s
  refine ⟨fun p => trimPoint_of_some, fun hnone hlen => ?short, fun hnone hlen => ?long, ?range⟩
  case short => rw [trimPoint_of_none hnone, if_pos hlen]
  case long =>
    rw [trimPoint_of_none hnone, if_neg (by omega)]
    exact ⟨fun _ => by omega, fun _ => by omega, fun k _ _ => by omega⟩
  case range =>
    cases h : findMarker s with
    | some p =>
      obtain ⟨-, heven, hlen, -⟩ := matchAt_of_findMarker h
      rw [trimPoint_of_some h]
      exact ⟨heven, by omega⟩
    | none =>
      rw [trimPoint_of_none h]
      split <;> omega

theorem trimPoint_even (s : Memory) : trimPoint s % 2 = 0 := by
  obtain ⟨-, -, -, heven, -⟩ := trimPointValue s
  exact heven

theorem trimPoint_le (s : Memory) : trimPoint s ≤ s.length := by
  obtain ⟨-, -, -, -, hle⟩ := trimPointValue s
  exact hle

/-- R77: what a trim cuts off holds no match, now or after more bytes. -/
theorem matchAt_before_trimPoint (s t : Memory) {q : Nat} (hq : q < trimPoint s) : matchAt (s ++ t) q = false := by
  by_contra hmatch
  rw [Bool.not_eq_false] at hmatch
  cases h : findMarker s with
  | some p =>
    have hpq : p ≤ q := le_of_findMarker (findMarker_append_of_some h t) hmatch
    rw [trimPoint_of_some h] at hq
    omega
  | none =>
    have hwindow : s.length < q + 6 := window_outside_of_matchAt_append h hmatch
    obtain ⟨heven, -⟩ := (matchAt_iff _ q).mp hmatch
    rw [trimPoint_of_none h] at hq
    split at hq <;> omega

/-- R77: a trim changes no extraction, now or after more bytes. -/
theorem tryExtractFrame_trim (s t : Memory) :
    tryExtractFrame (s.drop (trimPoint s) ++ t) = tryExtractFrame (s ++ t) := by
  have hle := trimPoint_le s
  rw [← List.drop_append_of_le_length hle]
  exact tryExtractFrame_drop (trimPoint_even s) (by rw [List.length_append]; omega)
    fun q hq => matchAt_before_trimPoint s t hq

/-- Settles O35: the bytes cut off hold no match. -/
theorem trimIsTransparent : Obligations.TrimIsTransparent := by
  unfold Obligations.TrimIsTransparent
  exact fun s t => ⟨tryExtractFrame_trim s t, frames_congr (tryExtractFrame_trim s t)⟩

/-! ## After a trim -/

/-- The first match of trimmed bytes is the first match, moved. -/
theorem findMarker_trim (s : Memory) (p : Nat) :
    findMarker (s.drop (trimPoint s)) = some p ↔ findMarker s = some (trimPoint s + p) :=
  findMarker_drop (trimPoint_even s) (trimPoint_le s)
    (fun q hq => by simpa using matchAt_before_trimPoint s [] hq) p

/-- R73: a trim brings the marker to the front. -/
theorem findMarker_trim_of_some {s : Memory} {p : Nat} (h : findMarker s = some p) :
    findMarker (s.drop (trimPoint s)) = some 0 := by
  rw [findMarker_trim, trimPoint_of_some h, h, add_zero]

theorem findMarker_trim_of_none {s : Memory} (h : findMarker s = none) : findMarker (s.drop (trimPoint s)) = none := by
  rw [Option.eq_none_iff_forall_ne_some]
  intro p hp
  rw [findMarker_trim, h] at hp
  nomatch hp

/-- R73: without a marker at most 5 bytes stay, and at least 4 where something goes. -/
theorem length_trim_of_none {s : Memory} (h : findMarker s = none) :
    (s.drop (trimPoint s)).length ≤ 5 ∧
    (trimPoint s ≠ 0 → (s.drop (trimPoint s)).length = 4 ∨ (s.drop (trimPoint s)).length = 5) := by
  rw [List.length_drop, trimPoint_of_none h]
  split <;> omega

/-- R73: a second trim finds nothing to cut. -/
theorem trimPoint_trim (s : Memory) : trimPoint (s.drop (trimPoint s)) = 0 := by
  cases h : findMarker s with
  | some p => exact trimPoint_of_some (findMarker_trim_of_some h)
  | none =>
    obtain ⟨hlen, -⟩ := length_trim_of_none h
    rw [trimPoint_of_none (findMarker_trim_of_none h), if_pos hlen]

/-- Settles O19: the trim point's value, and what is behind it. -/
theorem trimDropsThePrefix : Obligations.TrimDropsThePrefix := by
  unfold Obligations.TrimDropsThePrefix
  refine fun s => ⟨fun hzero => ?none, fun hne => ?ok, rfl⟩
  case none => rw [exec_eq_sendOp, sendOp_trim_none s hzero]; rfl
  case ok =>
    refine ⟨{ s with acc := s.acc.drop (trimPoint s.acc), rsp := some .ok }, ?answer, rfl, trimPoint_even s.acc,
      Memory.read_dropFront s.acc _, fun hnone => ?kept, fun hsome => ?marker, ?again, fun more => ?frames⟩
    case answer => rw [exec_eq_sendOp, sendOp_trim_ok s hne]; rfl
    case kept =>
      obtain ⟨-, hkept⟩ := length_trim_of_none hnone
      exact hkept hne
    case marker =>
      obtain ⟨p, hp⟩ := Option.ne_none_iff_exists'.mp hsome
      exact findMarker_trim_of_some hp
    case again => rw [exec_eq_sendOp, sendOp_trim_none _ (trimPoint_trim s.acc)]; rfl
    case frames => exact frames_congr (tryExtractFrame_trim s.acc more)

/-! ## A frame behind garbage -/

/-- R66: bytes of even length in front of a marker do not make a match with its first bytes. -/
theorem matchAt_before_marker {g m : Memory} (heven : g.length % 2 = 0) (hno : ∀ p, matchAt g p = false)
    (hm : matchAt m 0 = true) {q : Nat} (hq : q < g.length) : matchAt (g ++ m) q = false := by
  have hmarker : matchAt (g ++ m) g.length = true := by
    rw [← Nat.add_zero g.length, ← matchAt_drop heven (by simp), List.drop_left, hm]
  by_contra hmatch
  rw [Bool.not_eq_false] at hmatch
  obtain ⟨hqeven, -, -, hword1, hword2⟩ := (matchAt_iff _ q).mp hmatch
  obtain ⟨-, -, hword, -⟩ := (matchAt_iff _ g.length).mp hmarker
  have hwindow : g.length < q + 6 := window_outside_of_matchAt_append ((findMarker_eq_none_iff g).mpr hno) hmatch
  obtain hpos | hpos : g.length = q + 2 ∨ g.length = q + 4 := by omega
  · rw [hpos, hword1] at hword; nomatch hword
  · rw [hpos, hword2] at hword; nomatch hword

/-- Settles O37: the garbage holds no match and can be cut off. -/
theorem frameInGarbageIsFound : Obligations.FrameInGarbageIsFound := by
  unfold Obligations.FrameInGarbageIsFound
  intro garbage payload trailing heven hno hlen
  obtain ⟨hmarker, -⟩ := matchAt_of_findMarker (findMarker_of_marker (payload ++ trailing))
  rw [← tryExtractFrame_of_marker payload trailing hlen, List.append_assoc, List.append_assoc, List.append_assoc,
    ← tryExtractFrame_drop heven (by simp) fun q => matchAt_before_marker heven hno hmarker, List.drop_left]

/-! ## The accumulator -/

/-- Settles O17: fewer bytes than one frame leave room. -/
theorem pushCompletes : Obligations.PushCompletes := by
  unfold Obligations.PushCompletes
  intro b s hlen
  have hroom : atCapacity s.acc.length = false := atCapacity_of_lt (by rwa [Config.frameSize_eq])
  refine ⟨_, exec_eq_sendOp s _, ?_⟩
  rw [sendOp_push_ok s hroom]
  exact ⟨rfl, Memory.length_append s.acc b, Memory.read_append_same s.acc b, fun a => Memory.read_append_of_ne s.acc b⟩

/-- Settles O28: the words that change `ACC`, with the first match and the trim point in numbers. -/
theorem accumulatorChanges : Obligations.AccumulatorChanges := by
  unfold Obligations.AccumulatorChanges
  intro tw s t ht
  obtain rfl := eq_send_of_answer s ht
  rcases send_acc s tw with ⟨b, hd, hacc⟩ | ⟨f, hd, hframe⟩ | ⟨hd, hacc⟩ | ⟨hd, hacc⟩ | hacc
  · exact .inr (.inl ⟨b, hd, hacc⟩)
  · obtain ⟨p, hp, hlen, hr⟩ := remainder_of_tryExtractFrame hframe
    obtain ⟨-, heven, -⟩ := matchAt_of_findMarker hp
    exact .inr (.inr (.inl ⟨p, hd, hp, heven, by omega, hr⟩))
  · exact .inr (.inr (.inr (.inl ⟨_, hd, trimPoint_even _, trimPoint_le _, hacc⟩)))
  · exact .inr (.inr (.inr (.inr ⟨hd, hacc⟩)))
  · exact .inl hacc

end Sys2Proof.Machine
end

section
/-! PROOFS. The transaction word's round trip (spec/30_encoding.md R49 to R52), steps and runs (spec/60_exceptions.md R136,
spec/70_reset_and_hazards.md R140, R153), and the sticky `ERR` (spec/10_state.md R17, spec/60_exceptions.md R127, R134). -/

namespace Sys2Proof.Machine

/-! ## The word -/

/-- Settles O1: a word that the decoder reads has no bit beside its operation's. -/
theorem decodeAndEncodeAgree : Obligations.DecodeAndEncodeAgree := by
  unfold Obligations.DecodeAndEncodeAgree
  exact decodeWord_eq_ok_iff

/-- Settles O2: the nine words are the words of their operations. -/
theorem writtenWordsDecode : Obligations.WrittenWordsDecode := by
  unfold Obligations.WrittenWordsDecode
  simp only [decodeWord_eq_ok_iff]
  decide

/-! ## Steps -/

theorem step_of_port_nil {s : State} (h : s.port = []) : step s = .next s := by
  simp only [step, h]

theorem step_of_port_cons {s : State} {e : PortEvent} {k : List PortEvent} (h : s.port = e :: k) :
    step s = takeEvent e (s.setPort k) := by
  simp only [step, h]

/-- R133, R136, R140: what a step can do: wait, answer a word, or reset. -/
theorem step_cases (s : State) :
    (s.port = [] ∧ step s = .next s) ∨
    (∃ tw k, s.port = .word tw :: k ∧ step s = .next ((s.setPort k).send tw)) ∨
    (∃ w k, s.port = .rst w :: k ∧ step s = .next (s.setPort k).applyReset) := by
  cases h : s.port with
  | nil => exact .inl ⟨rfl, step_of_port_nil h⟩
  | cons e k =>
    rw [step_of_port_cons h]
    cases e with
    | word tw => exact .inr (.inl ⟨tw, k, rfl, answer_eq_next _ tw⟩)
    | rst w => exact .inr (.inr ⟨w, k, rfl, rfl⟩)

/-- Settles O5: the two kinds of port that it names. -/
theorem stepRunsTheDecodedWord : Obligations.StepRunsTheDecodedWord := by
  unfold Obligations.StepRunsTheDecodedWord
  refine ⟨fun s tw k i hport hi => ?_, fun s => step_of_port_nil⟩
  rw [step_of_port_cons hport, takeEvent, answer_eq_next, ← send_of_ok _ hi]
  rfl

/-- Settles O6: a reset is `applyReset`, which keeps the port only. -/
theorem resetFromAnyState : Obligations.ResetFromAnyState := by
  unfold Obligations.ResetFromAnyState
  refine ⟨fun s w k hport => ⟨(s.setPort k).applyReset, ?_, ?_⟩, rfl⟩
  · rw [step_of_port_cons hport, takeEvent]
  · exact ⟨rfl, rfl, rfl, rfl, rfl, rfl, rfl, rfl, rfl, fun hk => step_of_port_nil hk⟩

/-- R127, R131, R140: a step always answers a next state. -/
theorem step_eq_next (s : State) : ∃ t, step s = .next t := by
  rcases step_cases s with ⟨-, h⟩ | ⟨_, _, -, h⟩ | ⟨_, _, -, h⟩
  all_goals exact ⟨_, h⟩

/-! ## Runs -/

theorem run_succ_of_step {s t : State} (h : step s = .next t) (k : Nat) :
    Host.Core.run core (k + 1) s = Host.Core.run core k t := by
  have hcore : core.step s = .next t := h
  simp only [Host.Core.run, hcore]

/-- Settles O7, by induction on the number of steps. -/
theorem noRunStops : Obligations.NoRunStops := by
  unfold Obligations.NoRunStops
  intro k
  induction k with
  | zero => exact fun s => ⟨s, rfl⟩
  | succ k ih =>
    intro s
    obtain ⟨t, ht⟩ := step_eq_next s
    obtain ⟨u, hu⟩ := ih t
    exact ⟨u, (run_succ_of_step ht k).trans hu⟩

/-- Settles O8, by induction on the words: a word does the same whatever is on the port behind it. -/
theorem runsAreSteps : Obligations.RunsAreSteps := by
  unfold Obligations.RunsAreSteps
  intro s ws
  induction ws generalizing s with
  | nil => rfl
  | cons w ws ih =>
    have hstep : step (s.setPort (.word w :: ws.map .word)) = .next ((s.send w).setPort (ws.map .word)) := by
      rw [← send_setPort]
      exact answer_eq_next _ w
    exact (run_succ_of_step hstep _).trans (ih (s.send w))

/-- Settles O9: both operations write the same values again. -/
theorem setcfgAndClearAreIdempotent : Obligations.SetcfgAndClearAreIdempotent := by
  unfold Obligations.SetcfgAndClearAreIdempotent
  intro s t i hi ht
  rw [exec_eq_sendOp] at ht ⊢
  cases ht
  rcases hi with rfl | ⟨a, b, rfl⟩
  · simp only [sendOp_clear]; rfl
  · simp only [sendOp_setcfg]; rfl

/-! ## Errors -/

/-- Settles O13, by induction on the words: a word records a code only where `ERR` is 0. -/
theorem errIsSticky : Obligations.ErrIsSticky := by
  unfold Obligations.ErrIsSticky
  intro ws
  induction ws with
  | nil => exact fun s => ⟨fun _ => rfl, .inl⟩
  | cons w ws ih =>
    intro s
    obtain ⟨hkeep, hzero⟩ := ih (s.send w)
    rcases send_err s w with hsame | ⟨herr, -, e, hcode⟩
    · rw [hsame] at hkeep hzero
      exact ⟨hkeep, hzero⟩
    · have hne : (s.send w).err ≠ 0 := by rw [hcode]; cases e <;> decide
      exact ⟨absurd herr, fun _ => .inr ⟨e, (hkeep hne).trans hcode⟩⟩

/-- Settles O14: the third answer of each of the two stages. -/
theorem preconditionViolation : Obligations.PreconditionViolation := by
  unfold Obligations.PreconditionViolation
  refine ⟨fun s f hfrm hlen hraw => ?_, fun s r hraw hlen hout => ?_⟩
  · rw [exec_eq_sendOp, sendOp_decode_precond s hfrm hraw hlen, State.raiseError_eq]; rfl
  · rw [exec_eq_sendOp, sendOp_correct_precond s hraw hout hlen, State.raiseError_eq]; rfl

end Sys2Proof.Machine
end

section
/-! PROOFS. The corrector's frames compared index by index (spec/42_corrector.md R106), and wrong lengths (R89, R108). -/

namespace Sys2Proof.Machine

/-- R101, R106: with balance and without, the corrected values differ by the share of the index. -/
theorem quarterAt_balanced (raw : List Sample) (j : Nat) :
    quarterAt raw j true true = quarterAt raw j true false - balanceShare raw j := rfl

/-- Settles O47: the three closed forms at one index. -/
theorem balanceTouchesEvenIndicesOnly : Obligations.BalanceTouchesEvenIndicesOnly := by
  unfold Obligations.BalanceTouchesEvenIndicesOnly
  intro raw h
  refine ⟨_, _, _, correctFrame_of_length h false true, correctFrame_of_length h true false,
    correctFrame_of_length h true true, fun j hj => ?_⟩
  obtain ⟨p, hp, hplain⟩ := corrected_getElem? h false true hj
  obtain ⟨c, hc, hdark⟩ := corrected_getElem? h true false hj
  obtain ⟨d, hd, hbalanced⟩ := corrected_getElem? h true true hj
  rw [quarterAt_balanced, ← hdark] at hbalanced
  have hx : raw[j]? = some raw[j] := List.getElem?_eq_getElem (by omega)
  refine ⟨_, p, c, d, hx, hp, hc, hd, ?plain, fun hodd => ?odd, fun heven => ?even⟩
  case plain => rw [hplain, quarterAt, sampleInt, hx, Option.getD_some]
  case odd => exact BitVec.eq_of_toInt_eq (by rw [hbalanced, balanceShare, if_neg (by omega), sub_zero])
  case even => rw [hbalanced, balanceShare, if_pos heven]

/-- Settles O48: the closed form without balance, with the frame's samples put in. -/
theorem darkSubtractionExample : Obligations.DarkSubtractionExample := by
  unfold Obligations.DarkSubtractionExample
  intro raw h hraw
  have hsample {j : Nat} (hj : j < 3694) : sampleInt raw j = if j = 10 then 100 else if j = 11 then 200 else 50 := by
    rw [sampleInt, hraw j hj, Option.getD_some]
    split <;> [rfl; split <;> rfl]
  have hdark : dark4 raw = 600 := by
    rw [dark4_eq, hsample (by decide), hsample (by decide)]
    decide
  refine ⟨_, correctFrame_of_length h true false, fun j hj => ?_⟩
  obtain ⟨c, hc, hvalue⟩ := corrected_getElem? h true false hj
  refine ⟨c, hc, ?_⟩
  rw [hvalue, quarterAt, hdark, hsample hj]
  split <;> [rfl; split <;> rfl]

/-- Settles O49: a value has the right length in front of it. -/
theorem wrongLengthsGiveNoValue : Obligations.WrongLengthsGiveNoValue := by
  unfold Obligations.WrongLengthsGiveNoValue
  constructor
  · intro fb raw hlen hvalue
    obtain ⟨h, -⟩ := (decodeFrame_ok_iff fb raw).mp hvalue
    exact hlen h
  · intro raw i b cor hlen hvalue
    obtain ⟨h, -⟩ := (correctFrame_ok_iff raw i b cor).mp hvalue
    exact hlen h

end Sys2Proof.Machine
end

section
/-! PROOFS. The invariants of spec/10_state.md R23: they hold at reset, every step keeps them, no precondition is violated under
them (spec/60_exceptions.md R128), and there is no deadlock (spec/70_reset_and_hazards.md R148). -/

namespace Sys2Proof.Machine

/-! ## The frames that the stages make -/

/-- R23 (b): a frame that is extracted has the length of a frame and begins with the marker. -/
theorem frameOk_of_tryExtractFrame {m r : Memory} {f : List Byte} (h : tryExtractFrame m = some (f, r)) : FrameOk f := by
  obtain ⟨p, hp, hlen, rfl, -⟩ := (tryExtractFrame_eq_some_iff m f r).mp h
  obtain ⟨hmatch, -⟩ := matchAt_of_findMarker hp
  obtain ⟨-, -, hwindow⟩ := (matchAt_iff_bytes m p).mp hmatch
  have hbytes : markerBytes = [0x9D, 0x00, 0x3A, 0x00, 0x47, 0x00] := by decide
  refine ⟨?_, ?_⟩
  · rw [List.length_take, List.length_drop, Config.frameSize_eq]
    omega
  · rw [List.take_take, Config.markerBytesLen_eq, hbytes]
    exact hwindow

theorem decodeFrame_of_frameOk {f : List Byte} (h : FrameOk f) : decodeFrame f = .ok (samplesOf f) := by
  obtain ⟨hlen, -⟩ := h
  exact decodeFrame_of_length hlen

/-- R23 (c), R88 (d): the value of `decode` on such a frame begins with the marker's words. -/
theorem rawOk_of_decodeFrame {f : List Byte} {raw : List Sample} (hf : FrameOk f) (h : decodeFrame f = .ok raw) :
    RawOk raw := by
  obtain ⟨hlen, rfl⟩ := (decodeFrame_ok_iff f raw).mp h
  exact ⟨length_samplesOf_frame hlen, take_samplesOf_of_frameOk hf⟩

theorem correctFrame_of_rawOk {r : List Sample} (h : RawOk r) (invert balanced : Bool) :
    ∃ cor, correctFrame r invert balanced = .ok cor := by
  obtain ⟨hlen, -⟩ := h
  exact ⟨_, correctFrame_of_length hlen invert balanced⟩

/-- R23 (d): such a RawFrame and the value of `correct` on it are a pair. -/
theorem eventOk_of_correctFrame {raw : List Sample} {cor : List Corr} {invert balanced : Bool} (hr : RawOk raw)
    (h : correctFrame raw invert balanced = .ok cor) : EventOk ⟨raw, cor⟩ :=
  ⟨hr, correctFrame_length h, invert, balanced, h⟩

/-! ## The invariants -/

/-- Settles O51: every element is empty or 0. -/
theorem invariantsHoldAtReset : Obligations.InvariantsHoldAtReset := by
  unfold Obligations.InvariantsHoldAtReset
  exact ⟨Memory.wf_nil, nofun, nofun, nofun, nofun, .inl rfl⟩

namespace BlockInv

variable {s : State}

theorem respond (h : BlockInv s) (r : Resp) : BlockInv (s.respond r) := ⟨h.acc, h.frm, h.raw, h.out, h.outq, h.err⟩

theorem setPort (h : BlockInv s) (p : List PortEvent) : BlockInv (s.setPort p) :=
  ⟨h.acc, h.frm, h.raw, h.out, h.outq, h.err⟩

/-- R128: under the invariants both functions have a value on what stands in their register. -/
theorem not_violates (h : BlockInv s) {i : Instr} {e : ErrCode} : ¬ s.Violates i e := by
  rintro (⟨hfrm, hvalue⟩ | ⟨hraw, hvalue⟩)
  · rw [decodeFrame_of_frameOk (h.frm _ hfrm)] at hvalue
    nomatch hvalue
  · obtain ⟨cor, hcor⟩ := correctFrame_of_rawOk (h.raw _ hraw) (cfgInvert s.cfg) (cfgBalanced s.cfg)
    rw [hcor] at hvalue
    nomatch hvalue

/-- R23: a completed operation keeps the invariants. -/
theorem completes (h : BlockInv s) {i : Instr} {t : State} (hc : s.Completes i t) : BlockInv t := by
  obtain ⟨hacc, hfrm, hraw, hout, houtq, herr⟩ := h
  cases hc with
  | push b hroom => exact ⟨Memory.wf_append hacc hroom b, hfrm, hraw, hout, houtq, herr⟩
  | extract _ hframe =>
    obtain ⟨p, -, -, rfl⟩ := remainder_of_tryExtractFrame hframe
    refine ⟨Memory.wf_dropFront hacc _, ?_, hraw, hout, houtq, herr⟩
    rintro _ ⟨⟩
    exact frameOk_of_tryExtractFrame hframe
  | trim => exact ⟨Memory.wf_dropFront hacc _, hfrm, hraw, hout, houtq, herr⟩
  | decode hf _ hvalue =>
    refine ⟨hacc, nofun, ?_, hout, houtq, herr⟩
    rintro _ ⟨⟩
    exact rawOk_of_decodeFrame (hfrm _ hf) hvalue
  | setcfg => exact ⟨hacc, hfrm, hraw, hout, houtq, herr⟩
  | correct hr _ hvalue =>
    refine ⟨hacc, hfrm, nofun, ?_, houtq, herr⟩
    rintro _ ⟨⟩
    exact eventOk_of_correctFrame (hraw _ hr) hvalue
  | emit he =>
    refine ⟨hacc, hfrm, hraw, nofun, fun e hmem => ?_, herr⟩
    rcases List.mem_append.mp hmem with hold | hnew
    · exact houtq e hold
    · exact List.mem_singleton.mp hnew ▸ hout _ he
  | clear => exact ⟨Memory.wf_nil, nofun, nofun, nofun, houtq, herr⟩

/-- R55: an illegal word records code 3 where no error is recorded. -/
theorem raiseIllegal (h : BlockInv s) : BlockInv (s.raiseError .illegalTw .illegal) := by
  obtain ⟨hacc, hfrm, hraw, hout, houtq, herr⟩ := h
  rw [State.raiseError_eq]
  refine ⟨hacc, hfrm, hraw, hout, houtq, ?_⟩
  rcases herr with hzero | hthree
  · exact .inr (if_pos hzero)
  · exact .inr (by simp [hthree, ErrCode.code])

/-- R23, R128: a word keeps the invariants and is not answered `PRECOND`. -/
theorem send (h : BlockInv s) (tw : TWord) : BlockInv (s.send tw) ∧ (s.send tw).rsp ≠ some .precond := by
  rcases send_outcomes s tw with ⟨i, t, -, hc, hs⟩ | ⟨i, r, hr, -, hs⟩ | ⟨i, e, -, he, -⟩ | ⟨x, -, hs⟩
  · exact hs ▸ ⟨(h.completes hc).respond _, by simp⟩
  · refine hs ▸ ⟨h.respond r, ?_⟩
    rintro ⟨⟩
    revert hr
    cases i.op <;> decide
  · exact absurd he h.not_violates
  · exact hs ▸ ⟨h.raiseIllegal, by simp⟩

theorem sendOp (h : BlockInv s) (i : Instr) : BlockInv (s.sendOp i) := by
  obtain ⟨hnext, -⟩ := h.send (encode i)
  exact hnext

theorem runWords (h : BlockInv s) (ws : List TWord) : BlockInv (runWords s ws) := by
  induction ws generalizing s with
  | nil => exact h
  | cons w ws ih =>
    obtain ⟨hnext, -⟩ := h.send w
    exact ih hnext

theorem precond_notMem_responses (h : BlockInv s) (ws : List TWord) : some Resp.precond ∉ responses s ws := by
  induction ws generalizing s with
  | nil => nofun
  | cons w ws ih =>
    obtain ⟨hnext, hrsp⟩ := h.send w
    exact List.not_mem_cons_of_ne_of_not_mem hrsp.symm (ih hnext)

end BlockInv

/-- Settles O50: a step waits, answers a word, or resets. -/
theorem invariantsAreKept : Obligations.InvariantsAreKept := by
  unfold Obligations.InvariantsAreKept
  intro s t h ht
  rcases step_cases s with ⟨-, hs⟩ | ⟨tw, k, -, hs⟩ | ⟨w, k, -, hs⟩
  all_goals
    rw [hs] at ht
    cases ht
  · exact h
  · obtain ⟨hnext, -⟩ := (h.setPort k).send tw
    exact hnext
  · exact invariantsHoldAtReset.setPort k

/-- Settles O15: under the invariants, which a run keeps, no precondition is violated. -/
theorem preconditionsHold : Obligations.PreconditionsHold := by
  unfold Obligations.PreconditionsHold
  intro ws s h
  have herr := (h.runWords ws).err
  refine ⟨fun f hf => ⟨_, decodeFrame_of_frameOk (h.frm f hf)⟩, fun r hr i b => correctFrame_of_rawOk (h.raw r hr) i b,
    h.precond_notMem_responses ws, ?_, ?_⟩
  all_goals rcases herr with herr | herr <;> rw [herr] <;> decide

/-! ## Room for a byte -/

/-- R147: after `EMIT` the register `OUT` is free. -/
theorem sendOp_emit_out (s : State) : (s.sendOp .emit).out = none := by
  cases h : s.out with
  | none => rw [sendOp_emit_empty s h, State.respond_out, h]
  | some e => rw [sendOp_emit_ok s h]; rfl

/-- R147: with `OUT` free, `CORRECT` frees `RAW`. -/
theorem sendOp_correct_raw {s : State} (h : BlockInv s) (hout : s.out = none) : (s.sendOp .correct).raw = none := by
  cases hraw : s.raw with
  | none => rw [sendOp_correct_empty s hraw, State.respond_raw, hraw]
  | some r =>
    obtain ⟨hlen, -⟩ := h.raw r hraw
    rw [sendOp_correct_ok s hraw hout hlen]
    rfl

/-- R147: with `RAW` free, `DECODE` frees `FRM`. -/
theorem sendOp_decode_frm {s : State} (h : BlockInv s) (hraw : s.raw = none) : (s.sendOp .decode).frm = none := by
  cases hfrm : s.frm with
  | none => rw [sendOp_decode_empty s hfrm, State.respond_frm, hfrm]
  | some f =>
    obtain ⟨hlen, -⟩ := h.frm f hfrm
    rw [sendOp_decode_ok s hfrm hraw hlen]
    rfl

theorem sendOp_trim_acc (s : State) : (s.sendOp .trim).acc = s.acc.drop (trimPoint s.acc) := by
  by_cases h : trimPoint s.acc = 0
  · rw [sendOp_trim_none s h, State.respond_acc, h, List.drop_zero]
  · rw [sendOp_trim_ok s h]; rfl

theorem sendOp_trim_frm (s : State) : (s.sendOp .trim).frm = s.frm := by
  rw [sendOp_trim]
  split <;> rfl

/-- R72: a trimmed sequence without a frame is shorter than a frame. -/
theorem length_lt_of_trimmed {m : Memory} (htrim : trimPoint m = 0) (hnone : tryExtractFrame m = none) :
    m.length < 7388 := by
  cases hmarker : findMarker m with
  | none =>
    rw [trimPoint_of_none hmarker] at htrim
    split at htrim <;> omega
  | some p =>
    have hlen := (tryExtractFrame_eq_none_iff m).mp hnone p hmarker
    rw [trimPoint_of_some hmarker] at htrim
    omega

/-- R10: what is shorter than an accumulator in its form is not at the capacity. -/
theorem atCapacity_of_length_lt {m r : Memory} (h : Memory.wf m) (hlt : r.length < m.length) :
    atCapacity r.length = false := by
  rw [← Bool.not_eq_true, atCapacity_iff]
  intro hcap
  have := h _ hcap
  omega

/-- R148: `EXTRACT` on a trimmed accumulator takes a frame off it, or it is shorter than a frame. -/
theorem room_after_extract {s : State} (h : BlockInv s) (hfrm : s.frm = none) (htrim : trimPoint s.acc = 0) :
    atCapacity (s.sendOp .extract).acc.length = false := by
  cases hframe : tryExtractFrame s.acc with
  | some fr =>
    have hlen := length_remainder_of_tryExtractFrame hframe
    rw [sendOp_extract_ok s hfrm hframe]
    exact atCapacity_of_length_lt h.acc (by simp; omega)
  | none =>
    have hlen := length_lt_of_trimmed htrim hframe
    rw [sendOp_extract_none s hfrm hframe]
    exact atCapacity_of_lt (by rwa [Config.frameSize_eq])

/-- Settles O55: `EMIT`, `CORRECT`, `DECODE` free the registers one behind the other, and `TRIM` and `EXTRACT` make room. -/
theorem noDeadlock : Obligations.NoDeadlock := by
  unfold Obligations.NoDeadlock
  intro s b h
  have hout := sendOp_emit_out s
  have hraw := sendOp_correct_raw (h.sendOp .emit) hout
  have hfrm := sendOp_decode_frm ((h.sendOp .emit).sendOp .correct) hraw
  have hinv := (((h.sendOp .emit).sendOp .correct).sendOp .decode).sendOp .trim
  have hroom := room_after_extract hinv (by rwa [sendOp_trim_frm]) (by rw [sendOp_trim_acc, trimPoint_trim])
  show ((((((s.sendOp .emit).sendOp .correct).sendOp .decode).sendOp .trim).sendOp .extract).sendOp (.push b)).rsp = some .ok
  rw [sendOp_push_ok _ hroom, State.respond_rsp]

end Sys2Proof.Machine
end

section
/-! PROOFS. Sessions (spec/40_synchronizer.md R76, R79; spec/43_control.md R118; spec/70_reset_and_hazards.md R144): one relation
of what a run of words has taken in, extracted and corrected, and the laws by induction on it. -/

namespace Sys2Proof.Machine

/-! ## What a word adds to the records of a run -/

/-- The bytes an operation takes in when it completes (R69). -/
def pushedBy : Instr → List Byte
  | .push b => [b]
  | _ => []

/-- The frame an operation extracts when it leaves `t` (R70). -/
def extractedBy (t : State) : Instr → List (List Byte)
  | .extract => t.frm.toList
  | _ => []

/-- The modes an operation reads when it completes in `s` (R105). -/
def modesReadBy (s : State) : Instr → List (BitVec 2)
  | .correct => [s.cfg]
  | _ => []

theorem records_of_ok {s : State} {tw : TWord} {i : Instr} (hi : decodeWord tw = .ok i)
    (hok : (s.send tw).rsp = some .ok) :
    acceptedBytes s [tw] = pushedBy i ∧ extractedFrames s [tw] = extractedBy (s.send tw) i ∧
    correctModes s [tw] = modesReadBy s i := by
  simp only [acceptedBytes, extractedFrames, correctModes, hi, hok, List.append_nil]
  cases i <;> exact ⟨rfl, rfl, rfl⟩

theorem records_of_not_ok {s : State} {tw : TWord} (hno : (s.send tw).rsp ≠ some .ok) :
    acceptedBytes s [tw] = [] ∧ extractedFrames s [tw] = [] ∧ correctModes s [tw] = [] := by
  simp only [acceptedBytes, extractedFrames, correctModes, List.append_nil]
  refine ⟨?_, ?_, ?_⟩
  all_goals
    split
    · exact absurd ‹_› hno
    · rfl

theorem extractedFrames_append (s : State) (ws vs : List TWord) :
    extractedFrames s (ws ++ vs) = extractedFrames s ws ++ extractedFrames (runWords s ws) vs := by
  induction ws generalizing s with
  | nil => rfl
  | cons w ws ih => simp only [List.cons_append, extractedFrames, runWords, ih, List.append_assoc]

theorem correctModes_append (s : State) (ws vs : List TWord) :
    correctModes s (ws ++ vs) = correctModes s ws ++ correctModes (runWords s ws) vs := by
  induction ws generalizing s with
  | nil => rfl
  | cons w ws ih => simp only [List.cons_append, correctModes, runWords, ih, List.append_assoc]

/-! ## The relation -/

/-- A run from `s` of operations none of which is left out, and of words without effect on the data path: where it is, and its
three records: the bytes accepted, the frames cut off (R76), the modes read (R118). -/
inductive Session (leftOut : List Op) (s : State) : State → List Byte → List (List Byte) → List (BitVec 2) → Prop
  | start : Session leftOut s s [] [] []
  | idle {u v : State} {bytes : List Byte} {cut : List (List Byte)} {modes : List (BitVec 2)}
      (h : Session leftOut s u bytes cut modes) (hsame : u.SameData v) : Session leftOut s v bytes cut modes
  | completes {u v : State} {bytes : List Byte} {cut : List (List Byte)} {modes : List (BitVec 2)} {i : Instr}
      (h : Session leftOut s u bytes cut modes) (hop : i.op ∉ leftOut) (hc : u.Completes i v) :
      Session leftOut s v (bytes ++ pushedBy i) (cut ++ extractedBy v i) (modes ++ modesReadBy u i)

/-- Every run of words is in the relation, with its records and without the operations that no word is. -/
theorem session_of_words {leftOut : List Op} (s : State) (ws : List TWord)
    (hout : ∀ w ∈ ws, ∀ o ∈ leftOut, isOp o w = false) :
    Session leftOut s (runWords s ws) (acceptedBytes s ws) (extractedFrames s ws) (correctModes s ws) := by
  induction ws using List.reverseRecOn with
  | nil => exact .start
  | append_singleton ws w ih =>
    have hws := ih fun v hv => hout v (List.mem_append_left _ hv)
    have hw := hout w (List.mem_append_right _ (List.mem_singleton_self w))
    rw [runWords_append, acceptedBytes_append, extractedFrames_append, correctModes_append]
    rcases send_completes_or_sameData (runWords s ws) w with ⟨i, t, hi, hc, h⟩ | ⟨hsame, hno⟩
    · obtain ⟨hbytes, hcut, hmodes⟩ := records_of_ok hi (by rw [h, State.respond_rsp])
      have hop : i.op ∉ leftOut := fun hmem => by simpa [isOp_of_ok hi] using hw i.op hmem
      rw [hbytes, hcut, hmodes, runWords, runWords, h]
      exact (hws.completes hop hc).idle (t.sameData_respond .ok)
    · obtain ⟨hbytes, hcut, hmodes⟩ := records_of_not_ok hno
      rw [hbytes, hcut, hmodes, List.append_nil, List.append_nil, List.append_nil]
      exact hws.idle hsame

/-- A run without `CLEAR` (R76). -/
theorem session_of_noClear (s : State) {ws : List TWord} (hclear : ∀ w ∈ ws, isOp .clear w = false) :
    Session [.clear] s (runWords s ws) (acceptedBytes s ws) (extractedFrames s ws) (correctModes s ws) :=
  session_of_words s ws fun w hw => by simpa using hclear w hw

/-! ## Extraction as the stream grows -/

/-- R75: bytes behind a frame do not change its extraction. -/
theorem tryExtractFrame_append {m r : Memory} {f : List Byte} (h : tryExtractFrame m = some (f, r)) (t : Memory) :
    tryExtractFrame (m ++ t) = some (f, r ++ t) := by
  obtain ⟨p, hp, hlen, rfl, rfl⟩ := (tryExtractFrame_eq_some_iff m f r).mp h
  rw [tryExtractFrame_of_findMarker (findMarker_append_of_some hp t) (by rw [List.length_append]; omega),
    List.drop_append_of_le_length (by omega), List.drop_append_of_le_length hlen,
    List.take_append_of_le_length (by rw [List.length_drop]; omega)]

/-- R79: the bytes, in order, are a gap of even length and a frame for every frame cut off, one more such gap, and what is in
the accumulator. -/
def Placed (bytes : List Byte) (cut : List (List Byte)) (acc : Memory) : Prop :=
  ∃ gaps : List (List Byte), gaps.length = cut.length ∧ (∀ g ∈ gaps, g.length % 2 = 0) ∧
    ∃ last : List Byte, last.length % 2 = 0 ∧ bytes = (List.zipWith (· ++ ·) gaps cut).flatten ++ last ++ acc

theorem Placed.push {bytes : List Byte} {cut : List (List Byte)} {acc : Memory} (h : Placed bytes cut acc) (b : Byte) :
    Placed (bytes ++ [b]) cut (acc ++ [b]) := by
  obtain ⟨gaps, hlen, heven, last, hlast, rfl⟩ := h
  exact ⟨gaps, hlen, heven, last, hlast, by simp⟩

/-- What `TRIM` cuts off is added to the last gap. -/
theorem Placed.trim {bytes : List Byte} {cut : List (List Byte)} {acc : Memory} (h : Placed bytes cut acc) :
    Placed bytes cut (acc.drop (trimPoint acc)) := by
  obtain ⟨gaps, hlen, heven, last, hlast, rfl⟩ := h
  have hk := trimPoint_even acc
  have hle := trimPoint_le acc
  refine ⟨gaps, hlen, heven, last ++ acc.take (trimPoint acc), ?_, by simp⟩
  rw [List.length_append, List.length_take]
  omega

/-- What `EXTRACT` cuts off is the end of the last gap, which is then before the frame. -/
theorem Placed.extract {bytes : List Byte} {cut : List (List Byte)} {acc r : Memory} {f : List Byte}
    (h : Placed bytes cut acc) (hframe : tryExtractFrame acc = some (f, r)) : Placed bytes (cut ++ [f]) r := by
  obtain ⟨gaps, hlen, heven, last, hlast, rfl⟩ := h
  obtain ⟨p, hp, hfits, rfl, rfl⟩ := (tryExtractFrame_eq_some_iff acc f r).mp hframe
  obtain ⟨-, hpeven, -⟩ := matchAt_of_findMarker hp
  refine ⟨gaps ++ [last ++ acc.take p], by simp [hlen], fun g hg => ?_, [], rfl, ?_⟩
  · rcases List.mem_append.mp hg with hg | hg
    · exact heven g hg
    · rw [List.mem_singleton.mp hg, List.length_append, List.length_take]
      omega
  · rw [List.zipWith_append hlen]
    simp [← List.drop_drop]

section Laws

variable {leftOut : List Op} {s u : State} {bytes : List Byte} {cut : List (List Byte)} {modes : List (BitVec 2)}

/-- R76: whatever comes behind them, the frames of the accepted bytes are those cut off and those of the accumulator. -/
theorem Session.frames_append (h : Session leftOut s u bytes cut modes) (hclear : .clear ∈ leftOut) (hacc : s.acc = [])
    (t : Memory) : frames (bytes ++ t) = cut ++ frames (u.acc ++ t) := by
  induction h generalizing t with
  | start => rw [hacc]; rfl
  | idle _ hsame ih =>
    obtain ⟨hsame, -⟩ := hsame
    rw [ih, hsame]
  | completes _ hop hc ih =>
    cases hc with
    | push b => simpa [pushedBy, extractedBy, Memory.append] using ih (b :: t)
    | extract _ hframe =>
      obtain ⟨hframes, -⟩ := frames_rest_of_some (tryExtractFrame_append hframe t)
      simpa [pushedBy, extractedBy, hframes] using ih t
    | trim => simpa [pushedBy, extractedBy, Memory.dropFront, frames_congr (tryExtractFrame_trim _ t)] using ih t
    | clear => exact absurd hclear hop
    | decode | setcfg | correct | emit => simpa [pushedBy, extractedBy] using ih t

/-- R76: without `TRIM` the rest of the accepted bytes is the rest of the accumulator. -/
theorem Session.rest_append (h : Session leftOut s u bytes cut modes) (hclear : .clear ∈ leftOut) (htrim : .trim ∈ leftOut)
    (hacc : s.acc = []) (t : Memory) : rest (bytes ++ t) = rest (u.acc ++ t) := by
  induction h generalizing t with
  | start => rw [hacc]
  | idle _ hsame ih =>
    obtain ⟨hsame, -⟩ := hsame
    rw [ih, hsame]
  | completes _ hop hc ih =>
    cases hc with
    | push b => simpa [pushedBy, Memory.append] using ih (b :: t)
    | extract _ hframe =>
      obtain ⟨-, hrest⟩ := frames_rest_of_some (tryExtractFrame_append hframe t)
      simpa [pushedBy, hrest] using ih t
    | trim => exact absurd htrim hop
    | clear => exact absurd hclear hop
    | decode | setcfg | correct | emit => simpa [pushedBy] using ih t

/-- R79: in a session every accepted byte has its place. -/
theorem Session.placed (h : Session leftOut s u bytes cut modes) (hclear : .clear ∈ leftOut) (hacc : s.acc = []) :
    Placed bytes cut u.acc := by
  induction h with
  | start => exact ⟨[], rfl, nofun, [], rfl, by rw [hacc]; rfl⟩
  | idle _ hsame ih =>
    obtain ⟨hsame, -⟩ := hsame
    rwa [hsame]
  | completes _ hop hc ih =>
    cases hc with
    | push b => simpa [pushedBy, extractedBy, Memory.append] using ih.push b
    | extract _ hframe => simpa [pushedBy, extractedBy] using ih.extract hframe
    | trim => simpa [pushedBy, extractedBy, Memory.dropFront] using ih.trim
    | clear => exact absurd hclear hop
    | decode | setcfg | correct | emit => simpa [pushedBy, extractedBy] using ih

/-! ## The pipeline -/

/-- R118: the frames cut off are, in order, those corrected, the one in `RAW` if any, and the one in `FRM` if any; `OUTQ` and
then `OUT` have grown by the events of those corrected, each under the modes read for it. -/
def Pipeline (start now : State) (cut : List (List Byte)) (modes : List (BitVec 2)) : Prop :=
  ∃ corrected decoded : List (List Byte), cut = corrected ++ decoded ++ now.frm.toList ∧ corrected.length = modes.length ∧
    decoded.map decodeFrame = now.raw.toList.map .ok ∧
    (now.outq ++ now.out.toList).map some = start.outq.map some ++ List.zipWith eventOf corrected modes

/-- R118: the event of a frame, where both functions have a value. -/
theorem eventOf_eq_some {f : List Byte} {c : BitVec 2} {raw : List Sample} {cor : List Corr} (hraw : decodeFrame f = .ok raw)
    (hcor : correctFrame raw (cfgInvert c) (cfgBalanced c) = .ok cor) : eventOf f c = some ⟨raw, cor⟩ := by
  rw [eventOf, hraw]
  simp only [hcor]

/-- Each stage of the chain moves one frame on (R88, R105, R116). -/
theorem Pipeline.completes {v : State} {i : Instr} (h : Pipeline s u cut modes) (hi : i.op ≠ .clear) (hc : u.Completes i v) :
    Pipeline s v (cut ++ extractedBy v i) (modes ++ modesReadBy u i) := by
  obtain ⟨corrected, decoded, rfl, hlen, hdecoded, hevents⟩ := h
  cases hc with
  | extract hfrm => exact ⟨corrected, decoded, by simp [hfrm, extractedBy], by simpa [modesReadBy] using hlen, hdecoded,
      by simpa [modesReadBy] using hevents⟩
  | @decode f _ hfrm hraw hvalue =>
    have hnil : decoded = [] := by simpa [hraw] using hdecoded
    exact ⟨corrected, [f], by simp [hfrm, hnil, extractedBy], by simpa [modesReadBy] using hlen, by simp [hvalue],
      by simpa [modesReadBy] using hevents⟩
  | correct hraw hout hvalue =>
    obtain ⟨f, rfl, hf⟩ : ∃ f, decoded = [f] ∧ decodeFrame f = .ok _ := by
      simpa [hraw, List.map_eq_singleton_iff] using hdecoded
    refine ⟨corrected ++ [f], [], by simp [extractedBy], by simp [modesReadBy, hlen], rfl, ?_⟩
    simp only [hout, Option.toList_none, List.append_nil] at hevents
    rw [modesReadBy, List.zipWith_append hlen]
    simp [hevents, eventOf_eq_some hf hvalue]
  | emit hout => exact ⟨corrected, decoded, by simp [extractedBy], by simpa [modesReadBy] using hlen, hdecoded,
      by simpa [modesReadBy, hout] using hevents⟩
  | clear => exact absurd rfl hi
  | push | trim | setcfg => exact ⟨corrected, decoded, by simp [extractedBy], by simpa [modesReadBy] using hlen, hdecoded,
      by simpa [modesReadBy] using hevents⟩

theorem Session.pipeline (h : Session leftOut s u bytes cut modes) (hclear : .clear ∈ leftOut) (hs : s.stagesEmpty) :
    Pipeline s u cut modes := by
  induction h with
  | start =>
    obtain ⟨hfrm, hraw, hout⟩ := hs
    exact ⟨[], [], by rw [hfrm]; rfl, rfl, by rw [hraw]; rfl, by simp [hout]⟩
  | idle _ hsame ih =>
    obtain ⟨-, hfrm, hraw, hout, -, houtq⟩ := hsame
    rwa [Pipeline, hfrm, hraw, hout, houtq]
  | completes _ hop hc ih => exact ih.completes (fun h => hop (h ▸ hclear)) hc

/-- R118: without `SETCFG` every mode read is the one at the start. -/
theorem Session.modes_eq (h : Session leftOut s u bytes cut modes) (hsetcfg : .setcfg ∈ leftOut) :
    u.cfg = s.cfg ∧ modes = List.replicate modes.length s.cfg := by
  induction h with
  | start => exact ⟨rfl, rfl⟩
  | idle _ hsame ih =>
    obtain ⟨-, -, -, -, hsame, -⟩ := hsame
    rwa [hsame]
  | completes _ hop hc ih =>
    obtain ⟨hcfg, hmodes⟩ := ih
    cases hc with
    | setcfg => exact absurd hsetcfg hop
    | correct => exact ⟨hcfg, by simpa [modesReadBy, hcfg, List.replicate_succ'] using hmodes⟩
    | push | extract | trim | decode | emit | clear => exact ⟨hcfg, by simpa [modesReadBy] using hmodes⟩

end Laws

/-! ## The statements -/

/-- The frames of the accepted bytes, at the end of a run without `CLEAR`. -/
theorem frames_acceptedBytes {s : State} {ws : List TWord} (hacc : s.acc = []) (hclear : ∀ w ∈ ws, isOp .clear w = false) :
    frames (acceptedBytes s ws) = extractedFrames s ws ++ frames (runWords s ws).acc := by
  simpa using (session_of_noClear s hclear).frames_append (List.mem_singleton_self _) hacc []

/-- They are the frames extracted, where no frame is left. -/
theorem frames_acceptedBytes_of_none {s : State} {ws : List TWord} (hacc : s.acc = [])
    (hclear : ∀ w ∈ ws, isOp .clear w = false) (hnone : tryExtractFrame (runWords s ws).acc = none) :
    frames (acceptedBytes s ws) = extractedFrames s ws := by
  obtain ⟨hframes, -⟩ := frames_rest_of_none hnone
  rw [frames_acceptedBytes hacc hclear, hframes, List.append_nil]

/-- Settles O38: by the frames, and without `TRIM` the rest, of the accepted bytes. -/
theorem chunkSizeIndependence : Obligations.ChunkSizeIndependence := by
  unfold Obligations.ChunkSizeIndependence
  refine fun s ws hacc hclear => ⟨⟨_, (frames_acceptedBytes hacc hclear).symm⟩, fun hnone =>
    ⟨(frames_acceptedBytes_of_none hacc hclear hnone).symm, fun htrim => ?_⟩⟩
  have hsession := session_of_words (leftOut := [.clear, .trim]) s ws
    fun w hw => by simpa using ⟨hclear w hw, htrim w hw⟩
  obtain ⟨-, hrest⟩ := frames_rest_of_none hnone
  have h := hsession.rest_append (by decide) (by decide) hacc []
  rw [List.append_nil, List.append_nil, hrest] at h
  exact h.symm

/-- Settles O39: every operation of a session keeps every byte in its place. -/
theorem everyByteInOnePlace : Obligations.EveryByteInOnePlace := by
  unfold Obligations.EveryByteInOnePlace
  exact fun s ws hacc hclear => (session_of_noClear s hclear).placed (List.mem_singleton_self _) hacc

/-- Settles O40: bytes without a match have no frames. -/
theorem misalignedSessionGivesNothing : Obligations.MisalignedSessionGivesNothing := by
  unfold Obligations.MisalignedSessionGivesNothing
  intro s ws hacc hclear hno
  have hnone := tryExtractFrame_of_findMarker_none ((findMarker_eq_none_iff _).mpr hno)
  obtain ⟨hframes, -⟩ := frames_rest_of_none hnone
  have h := frames_acceptedBytes hacc hclear
  rw [hframes] at h
  obtain ⟨hcut, -⟩ := List.append_eq_nil_iff.mp h.symm
  exact hcut

/-- Settles O56: the frames corrected are the first of those extracted, which are the first of the accepted bytes. -/
theorem endToEndLaw : Obligations.EndToEndLaw := by
  unfold Obligations.EndToEndLaw
  rintro s ws ⟨hacc, hstages⟩ hclear
  obtain ⟨corrected, decoded, hcut, hlen, hdecoded, hevents⟩ :=
    (session_of_noClear s hclear).pipeline (List.mem_singleton_self _) hstages
  have hframes := frames_acceptedBytes hacc hclear
  rw [hcut, List.append_assoc, List.append_assoc] at hframes
  refine ⟨?events, ?bound, ?complete⟩
  case events =>
    rw [hevents, hframes, ← List.append_nil (correctModes s ws), List.zipWith_append hlen, List.zipWith_nil_right,
      List.append_nil, List.append_nil]
  case bound =>
    rw [hframes, List.length_append, hlen]
    exact Nat.le_add_right _ _
  case complete =>
    rintro ⟨⟨hfrm, hraw, -⟩, hnone⟩
    have hnil : decoded = [] := by simpa [hraw] using hdecoded
    rw [frames_acceptedBytes_of_none hacc hclear hnone, hcut, hnil, hfrm, ← hlen]
    simp

/-- What a complete session without `CLEAR` and `SETCFG` leaves in `OUTQ`, by its accepted bytes alone (R118). -/
theorem outq_of_complete {s : State} {ws : List TWord} (hs : s.sessionStart)
    (hwords : ∀ w ∈ ws, isOp .clear w = false ∧ isOp .setcfg w = false) (hcomplete : (runWords s ws).complete) :
    (runWords s ws).outq.map some = s.outq.map some ++ List.zipWith eventOf (frames (acceptedBytes s ws))
      (List.replicate (frames (acceptedBytes s ws)).length s.cfg) := by
  obtain ⟨hevents, -, hall⟩ := endToEndLaw s ws hs fun w hw => (hwords w hw).1
  have hsession := session_of_words (leftOut := [.clear, .setcfg]) s ws fun w hw => by simpa using hwords w hw
  obtain ⟨-, hmodes⟩ := hsession.modes_eq (by decide)
  have hlen := hall hcomplete
  obtain ⟨⟨-, -, hout⟩, -⟩ := hcomplete
  rw [hmodes, hlen, hout, Option.toList_none, List.append_nil] at hevents
  exact hevents

/-- Settles O57: both sessions leave what their common bytes give. -/
theorem scheduleDoesNotMatter : Obligations.ScheduleDoesNotMatter := by
  unfold Obligations.ScheduleDoesNotMatter
  intro s ws vs hs hws hvs hbytes hwsComplete hvsComplete
  have h := outq_of_complete hs hws hwsComplete
  rw [hbytes, ← outq_of_complete hs hvs hvsComplete] at h
  exact List.map_injective_iff.mpr (Option.some_injective Event) h

end Sys2Proof.Machine
end

section
/-! PROOFS. FRAME and DRAIN (spec/30_encoding.md R57), the chain that holds with all registers occupied
(spec/70_reset_and_hazards.md R147), and the beats of the output port (spec/30_encoding.md R58). -/

namespace Sys2Proof.Machine

/-! ## FRAME -/

/-- FRAME with nothing to extract: every stage finds its source empty. -/
theorem frame_of_none {s : State} (hs : s.stagesEmpty) (hnone : tryExtractFrame s.acc = none) :
    responses s frameOps = [some .none, some .empty, some .empty, some .empty] ∧
    runWords s frameOps = { s with rsp := some .empty } := by
  obtain ⟨hfrm, hraw, hout⟩ := hs
  have h1 : s.send (encode .extract) = s.respond .none := sendOp_extract_none s hfrm hnone
  have h2 : (s.respond .none).send (encode .decode) = s.respond .empty := sendOp_decode_empty _ hfrm
  have h3 : (s.respond .empty).send (encode .correct) = s.respond .empty := sendOp_correct_empty _ hraw
  have h4 : (s.respond .empty).send (encode .emit) = s.respond .empty := sendOp_emit_empty _ hout
  simp only [frameOps, List.map_cons, List.map_nil, responses, runWords, h1, h2, h3, h4]
  exact ⟨rfl, rfl⟩

/-- FRAME with a frame to extract: each stage takes it from the one before. -/
theorem frame_of_some {s : State} (hs : s.stagesEmpty) {f : List Byte} {r : Memory}
    (hframe : tryExtractFrame s.acc = some (f, r)) :
    responses s frameOps = [some .ok, some .ok, some .ok, some .ok] ∧
    ∃ e, eventOf f s.cfg = some e ∧ runWords s frameOps = { s with acc := r, outq := s.outq ++ [e], rsp := some .ok } := by
  obtain ⟨hfrm, hraw, hout⟩ := hs
  obtain ⟨hlen, -⟩ := frameOk_of_tryExtractFrame hframe
  have hsamples := length_samplesOf_frame hlen
  have hcor := correctFrame_of_length hsamples (cfgInvert s.cfg) (cfgBalanced s.cfg)
  have h1 : s.send (encode .extract) = { s with acc := r, frm := some f, rsp := some .ok } :=
    sendOp_extract_ok s hfrm hframe
  have h2 : State.send { s with acc := r, frm := some f, rsp := some .ok } (encode .decode) =
      { s with acc := r, frm := none, raw := some (samplesOf f), rsp := some .ok } := sendOp_decode_ok _ rfl hraw hlen
  have h3 : State.send { s with acc := r, frm := none, raw := some (samplesOf f), rsp := some .ok } (encode .correct) =
      { s with acc := r, frm := none, raw := none, out := some ⟨samplesOf f, _⟩, rsp := some .ok } :=
    sendOp_correct_ok _ rfl hout hsamples
  have h4 (e : Event) :
      State.send { s with acc := r, frm := none, raw := none, out := some e, rsp := some .ok } (encode .emit) =
      { s with acc := r, frm := none, raw := none, out := none, outq := s.outq ++ [e], rsp := some .ok } :=
    sendOp_emit_ok _ rfl
  simp only [frameOps, List.map_cons, List.map_nil, responses, runWords, h1, h2, h3, h4]
  refine ⟨trivial, _, eventOf_eq_some (decodeFrame_of_length hlen) hcor, ?_⟩
  rw [hfrm, hraw, hout]

/-- Settles O52: the two cases of FRAME. -/
theorem frameMovesOneFrame : Obligations.FrameMovesOneFrame := by
  unfold Obligations.FrameMovesOneFrame
  exact fun s hs => ⟨frame_of_none hs, fun f r => frame_of_some hs⟩

/-! ## DRAIN -/

/-- From `s` to `t` every frame of the accumulator is emitted in order, and nothing else is left to extract (R57, R118). -/
def Drained (s t : State) : Prop :=
  t.complete ∧ t.acc = rest s.acc ∧ t.cfg = s.cfg ∧ t.err = s.err ∧
    t.outq.map some = s.outq.map some ++ (frames s.acc).map fun f => eventOf f s.cfg

theorem drainFrom_of_none {s : State} (hs : s.stagesEmpty) (hnone : tryExtractFrame s.acc = none) (fuel : Nat) :
    drainFrom (fuel + 1) s = { s with rsp := some .empty } := by
  obtain ⟨-, hrun⟩ := frame_of_none hs hnone
  have ⟨hfrm, _⟩ := hs
  have hrsp : (s.sendOp .extract).rsp = some .none := by rw [sendOp_extract_none s hfrm hnone, State.respond_rsp]
  rw [drainFrom, if_pos hrsp, hrun]

theorem drainFrom_of_some {s : State} (hs : s.stagesEmpty) {f : List Byte} {r : Memory}
    (hframe : tryExtractFrame s.acc = some (f, r)) (fuel : Nat) :
    ∃ e, eventOf f s.cfg = some e ∧
      drainFrom (fuel + 1) s = drainFrom fuel { s with acc := r, outq := s.outq ++ [e], rsp := some .ok } := by
  obtain ⟨-, e, he, hrun⟩ := frame_of_some hs hframe
  have ⟨hfrm, _⟩ := hs
  have hrsp : (s.sendOp .extract).rsp ≠ some .none := by
    rw [sendOp_extract_ok s hfrm hframe, State.respond_rsp]
    decide
  exact ⟨e, he, by rw [drainFrom, if_neg hrsp, hrun]⟩

/-- R57: with a turn for every byte and one more, the loop ends by itself; every turn but the last takes one frame. -/
theorem drained_drainFrom (fuel : Nat) {s : State} (hs : s.stagesEmpty) (hfuel : s.acc.length < fuel) :
    Drained s (drainFrom fuel s) := by
  induction fuel generalizing s with
  | zero => omega
  | succ fuel ih =>
    cases hframe : tryExtractFrame s.acc with
    | none =>
      obtain ⟨hframes, hrest⟩ := frames_rest_of_none hframe
      rw [drainFrom_of_none hs hframe]
      exact ⟨⟨hs, hframe⟩, hrest.symm, rfl, rfl, by rw [hframes, List.map_nil, List.append_nil]⟩
    | some fr =>
      obtain ⟨f, r⟩ := fr
      obtain ⟨hframes, hrest⟩ := frames_rest_of_some hframe
      obtain ⟨e, he, hdrain⟩ := drainFrom_of_some hs hframe fuel
      have hshorter := length_remainder_of_tryExtractFrame hframe
      obtain ⟨hcomplete, hacc, hcfg, herr, houtq⟩ :=
        ih (s := { s with acc := r, outq := s.outq ++ [e], rsp := some .ok }) hs (by simp only; omega)
      rw [hdrain]
      exact ⟨hcomplete, hacc.trans hrest.symm, hcfg, herr, by simp [houtq, hframes, he]⟩

/-- Settles O53: DRAIN has more turns than the accumulator has bytes. -/
theorem drainEmitsEveryFrame : Obligations.DrainEmitsEveryFrame := by
  unfold Obligations.DrainEmitsEveryFrame
  exact fun s hs => drained_drainFrom _ hs (by omega)

/-! ## All registers occupied -/

/-- Settles O54: three times `BUSY`, which leaves all three registers occupied. -/
theorem backpressureLosesNothing : Obligations.BackpressureLosesNothing := by
  unfold Obligations.BackpressureLosesNothing
  intro s hfrm hraw hout
  obtain ⟨f, hfrm⟩ := Option.isSome_iff_exists.mp hfrm
  obtain ⟨r, hraw⟩ := Option.isSome_iff_exists.mp hraw
  obtain ⟨e, hout⟩ := Option.isSome_iff_exists.mp hout
  have h1 : s.send (encode .extract) = s.respond .busy := sendOp_extract_busy s hfrm
  have h2 : (s.respond .busy).send (encode .decode) = s.respond .busy := sendOp_decode_busy _ hfrm hraw
  have h3 : (s.respond .busy).send (encode .correct) = s.respond .busy := sendOp_correct_busy _ hraw hout
  simp only [List.map_cons, List.map_nil, responses, runWords, h1, h2, h3]
  exact ⟨rfl, rfl⟩

/-! ## Beats -/

theorem beats_getElem? (e : Event) {i : Nat} {x : Sample} {c : Corr} (hx : e.raw[i]? = some x) (hc : e.cor[i]? = some c) :
    e.beats[i]? = some { index := BitVec.ofNat 12 i, raw := x, cor := c, last := i == 3693 } := by
  have hzip : (e.raw.zip e.cor)[i]? = some (x, c) := List.getElem?_zip_eq_some.mpr ⟨hx, hc⟩
  rw [Event.beats, List.getElem?_mapIdx, hzip]
  rfl

/-- Settles O10: a beat for each index of the two frames. -/
theorem beatsOfAnEvent : Obligations.BeatsOfAnEvent := by
  unfold Obligations.BeatsOfAnEvent
  refine fun e hraw hcor => ⟨by simp [Event.beats, hraw, hcor], fun i hi => ?_⟩
  have hx : e.raw[i]? = some e.raw[i] := List.getElem?_eq_getElem (by omega)
  have hc : e.cor[i]? = some e.cor[i] := List.getElem?_eq_getElem (by omega)
  exact ⟨_, _, hx, hc, beats_getElem? e hx hc⟩

end Sys2Proof.Machine
end

section
/-! PROOFS. The assembler spelling (spec/30_encoding.md R56): the tokens of a written line, and what they are read as. -/

namespace Sys2Proof.Machine

/-! ## The lexer -/

/-- The characters that stand in a text as they are: none that separates, ends or may begin an arrow. -/
def isTextChar (c : Char) : Bool := !([';', ',', '-', ' ', '\t'].contains c)

theorem lexLine_textChar {c : Char} (h : isTextChar c = true) (k cur : List Char) :
    lexLine (c :: k) cur = lexLine k (c :: cur) := by
  obtain ⟨hsemicolon, hcomma, hdash, hspace, htab⟩ : c ≠ ';' ∧ c ≠ ',' ∧ c ≠ '-' ∧ c ≠ ' ' ∧ c ≠ '\t' := by
    simpa [isTextChar] using h
  rw [lexLine]
  · exact if_neg (not_or.mpr ⟨hspace, htab⟩)
  · exact hsemicolon
  · exact hcomma
  · exact fun _ hc => absurd hc hdash

/-- The characters of a text are gathered. -/
theorem lexLine_text (cs k cur : List Char) (h : cs.all isTextChar = true) :
    lexLine (cs ++ k) cur = lexLine k (cs.reverse ++ cur) := by
  induction cs generalizing cur with
  | nil => rfl
  | cons c cs ih =>
    obtain ⟨hc, hcs⟩ : isTextChar c = true ∧ cs.all isTextChar = true := by simpa using h
    rw [List.cons_append, lexLine_textChar hc, ih _ hcs, List.reverse_cons, List.append_assoc]
    rfl

/-- A tail of a line that ends the text before it. -/
def EndsText (tail : List Char) : Prop := ∀ cur, lexLine tail cur = flushText cur ++ lexLine tail []

theorem endsText_nil : EndsText [] := fun cur => by simp [lexLine, flushText]

theorem endsText_space (k : List Char) : EndsText (' ' :: k) := fun cur => by simp [lexLine, flushText]

theorem endsText_comma (k : List Char) : EndsText (',' :: k) := fun cur => by simp [lexLine, flushText]

theorem lexLine_space (k : List Char) : lexLine (' ' :: k) [] = lexLine k [] := by simp [lexLine, flushText]

theorem lexLine_comma (k : List Char) : lexLine (',' :: k) [] = .comma :: lexLine k [] := by simp [lexLine, flushText]

theorem lexLine_arrow (k : List Char) : lexLine ('-' :: '>' :: k) [] = .arrow :: lexLine k [] := by simp [lexLine, flushText]

/-- A text and a tail that ends it. -/
theorem lexLine_text_tail {cs tail : List Char} (hcs : cs.all isTextChar = true) (hne : cs ≠ []) (htail : EndsText tail) :
    lexLine (cs ++ tail) [] = .text cs :: lexLine tail [] := by
  rw [lexLine_text cs tail [] hcs, htail]
  simp [flushText, hne]

/-! ## Digits -/

theorem digitValue_hexDigits : ∀ d < 16, digitValue (hexDigits.getD d '0') = some d := by decide

theorem isTextChar_hexDigits : ∀ d < 16, isTextChar (hexDigits.getD d '0') = true := by decide

theorem all_isTextChar_renderByte (b : Byte) : (renderByte b).all isTextChar = true := by
  have hb := b.isLt
  simp only [renderByte, List.all_cons, isTextChar_hexDigits _ (show b.toNat / 16 < 16 by omega),
    isTextChar_hexDigits _ (show b.toNat % 16 < 16 by omega)]
  decide

/-- One digit of a number. -/
theorem numberIn_hexDigit {d : Nat} (hd : d < 16) (k : List Char) (acc : Option Nat) :
    numberIn 16 (hexDigits.getD d '0' :: k) acc = numberIn 16 k (some (acc.getD 0 * 16 + d)) := by
  rw [numberIn, digitValue_hexDigits d hd]
  exact if_pos hd

/-- The two digits of a byte have its value. -/
theorem parseByte_renderByte (b : Byte) : parseByte (renderByte b) = some b := by
  have hb : b.toNat < 256 := b.isLt
  have hsum : 0 * 16 + b.toNat / 16 = b.toNat / 16 := by omega
  have hvalue : numberIn 16 [hexDigits.getD (b.toNat / 16) '0', hexDigits.getD (b.toNat % 16) '0'] none = some b.toNat := by
    rw [numberIn_hexDigit (by omega), numberIn_hexDigit (by omega), numberIn, Option.getD_some, Option.getD_none, hsum,
      Nat.div_add_mod']
  simp only [parseByte, renderByte, hvalue, hb, ↓reduceIte, BitVec.ofNat_toNat, BitVec.setWidth_eq]

/-! ## Operations -/

/-- The tokens of an operation's line. -/
def instrTokens : Instr → List Token
  | .push b => [.text (opName .push), .text (renderByte b)]
  | .setcfg invert balanced => [.text (opName .setcfg), .text [renderBit invert], .comma, .text [renderBit balanced]]
  | i => [.text (opName i.op)]

theorem all_isTextChar_opName (o : Op) : (opName o).all isTextChar = true := by
  cases o <;> decide

theorem opName_ne_nil (o : Op) : opName o ≠ [] := by
  cases o <;> decide

theorem lexLine_opName (o : Op) {tail : List Char} (htail : EndsText tail) :
    lexLine (opName o ++ tail) [] = .text (opName o) :: lexLine tail [] :=
  lexLine_text_tail (all_isTextChar_opName o) (opName_ne_nil o) htail

theorem all_isTextChar_renderBit (b : Bool) : [renderBit b].all isTextChar = true := by
  cases b <;> decide

/-- R56: an operation's line and a tail that ends it give the operation's tokens and the tail's. -/
theorem lexLine_renderInstr (i : Instr) {tail : List Char} (htail : EndsText tail) :
    lexLine (renderInstr i ++ tail) [] = instrTokens i ++ lexLine tail [] := by
  cases i with
  | push b =>
    rw [renderInstr, List.append_assoc, List.cons_append, lexLine_opName _ (endsText_space _), lexLine_space,
      lexLine_text_tail (all_isTextChar_renderByte b) (by simp [renderByte]) htail]
    rfl
  | setcfg invert balanced =>
    have hline : renderInstr (.setcfg invert balanced) ++ tail =
        opName .setcfg ++ ' ' :: ([renderBit invert] ++ ',' :: ' ' :: ([renderBit balanced] ++ tail)) := rfl
    rw [hline, lexLine_opName _ (endsText_space _), lexLine_space,
      lexLine_text_tail (all_isTextChar_renderBit invert) (by simp) (endsText_comma _), lexLine_comma, lexLine_space,
      lexLine_text_tail (all_isTextChar_renderBit balanced) (by simp) htail]
    rfl
  | extract | trim | decode | correct | emit | clear => simp only [renderInstr, lexLine_opName _ htail, instrTokens]; rfl

theorem parseBit_renderBit (b : Bool) : parseBit [renderBit b] = some b := by
  cases b <;> rfl

/-- R56: an operation's tokens are read as the operation. -/
theorem parseInstr_instrTokens (i : Instr) : parseInstr (instrTokens i) = some i := by
  cases i with
  | push b => simp [instrTokens, parseInstr, parseByte_renderByte]
  | setcfg invert balanced => simp [instrTokens, parseInstr, parseBit_renderBit]
  | extract | trim | decode | correct | emit | clear => decide

theorem parseResp_respName (r : Resp) : parseResp (respName r) = some r := by
  cases r <;> decide

theorem all_isTextChar_respName (r : Resp) : (respName r).all isTextChar = true ∧ respName r ≠ [] := by
  cases r <;> decide

/-! ## Lines -/

theorem instrTokens_ne_arrow (i : Instr) : ∀ t ∈ instrTokens i, (t != Token.arrow) = true := by
  cases i <;> simp [instrTokens]

theorem instrTokens_ne_nil (i : Instr) : instrTokens i ≠ [] := by
  cases i <;> simp [instrTokens]

/-- A line whose tokens are those of an operation alone. -/
theorem parseLine_of_tokens {cs : List Char} {i : Instr} (h : lexLine cs [] = instrTokens i) :
    parseLine cs = some (some ⟨i, none⟩) := by
  have htake := List.takeWhile_eq_self_iff.mpr (instrTokens_ne_arrow i)
  have hdrop := List.dropWhile_eq_nil_iff.mpr (instrTokens_ne_arrow i)
  simp only [parseLine, h, instrTokens_ne_nil, htake, hdrop, parseInstr_instrTokens]
  rfl

/-- A line whose tokens are those of an operation, an arrow and a response. -/
theorem parseLine_of_tokens_arrow {cs : List Char} {i : Instr} {r : Resp}
    (h : lexLine cs [] = instrTokens i ++ [.arrow, .text (respName r)]) :
    parseLine cs = some (some ⟨i, some r⟩) := by
  have htake : (instrTokens i ++ [Token.arrow, .text (respName r)]).takeWhile (· != .arrow) = instrTokens i := by
    rw [List.takeWhile_append_of_pos (instrTokens_ne_arrow i)]
    exact List.append_nil _
  have hdrop : (instrTokens i ++ [Token.arrow, .text (respName r)]).dropWhile (· != .arrow) =
      [.arrow, .text (respName r)] :=
    List.dropWhile_append_of_pos (instrTokens_ne_arrow i)
  simp [parseLine, h, htake, hdrop, parseInstr_instrTokens, parseResp_respName]

/-- Settles O11: the tokens of the three lines. -/
theorem writtenLinesAreRead : Obligations.WrittenLinesAreRead := by
  unfold Obligations.WrittenLinesAreRead
  refine fun i r => ⟨parseLine_of_tokens ?alone, parseLine_of_tokens ?comment, parseLine_of_tokens_arrow ?response⟩
  case alone => simpa [lexLine, flushText] using lexLine_renderInstr i endsText_nil
  case comment => simpa [lexLine, flushText] using lexLine_renderInstr i (endsText_space [';', 'x'])
  case response =>
    obtain ⟨hchars, hne⟩ := all_isTextChar_respName r
    have hresp : lexLine (respName r) [] = [.text (respName r)] := by
      simpa [lexLine, flushText] using lexLine_text_tail hchars hne endsText_nil
    have htail : lexLine (' ' :: '-' :: '>' :: ' ' :: respName r) [] = [.arrow, .text (respName r)] := by
      rw [lexLine_space, lexLine_arrow, lexLine_space, hresp]
    rw [List.append_assoc, ← htail]
    exact lexLine_renderInstr i (endsText_space _)

end Sys2Proof.Machine
end
